-- ==== Sys2Proof/Word.lean ====
section
/-! DEFINITION. Words and the plain values that pass through the unit: bytes, status values, field values, the
payload and the ten-byte frame, and the names of the wire layouts. Types only: every operation on them stands in
Machine/Operands.lean. -/

namespace Sys2Proof

/-- `uint8` (R10). -/
abbrev Byte := BitVec 8

/-- `uint16` (R10). -/
abbrev Half := BitVec 16

/-- The two field tables: `first` is table 1 (`T1`, configuration), `second` is table 2 (`T2`, status). R24. -/
inductive Tab where
  | first
  | second
deriving DecidableEq, Repr, Inhabited

/-- A raw status value as the host presents it: one byte in variant a, one 16-bit register in variant b. R32, R36. -/
inductive StatusValue where
  | byte (v : Byte)
  | reg (v : Half)
deriving DecidableEq, Repr

/-- A FieldValue `(tab, idx, val)`. One the host presents may break the domain invariant; the unit checks it. R33. -/
structure FieldValue where
  tab : Tab
  idx : Nat
  val : Byte
deriving DecidableEq, Repr, Inhabited

/-- The six argument bytes of a frame, numbered by the frame position they take. R73, R132. -/
structure Args where
  a1 : Byte := 0
  a2 : Byte := 0
  a3 : Byte := 0
  a4 : Byte := 0
  a5 : Byte := 0
  a6 : Byte := 0
deriving DecidableEq, Repr, Inhabited

/-- The eight payload bytes, frame positions 0 to 7: command, arguments, device address. R35, R73. -/
structure Payload where
  cmd : Byte := 0
  args : Args := {}
  addr : Byte := 0
deriving DecidableEq, Repr, Inhabited

/-- A frame: payload and two trailer bytes, positions 8 and 9. Its length is part of the type (R134). R35, R73. -/
structure Frame where
  payload : Payload := {}
  ckHi : Byte := 0
  ckLo : Byte := 0
deriving DecidableEq, Repr, Inhabited

/-- The eleven request layouts of the command code map. R75. -/
inductive ReqLayout where
  | getstate | addrdef | rdflow | baud | regime | readdr | recov | plug | zeroset | zeroget | setflow
deriving DecidableEq, Repr, Inhabited

/-- The five response layouts. R153, R155, R158, R167, R168. -/
inductive RspLayout where
  | getstateR | addrdefR | rdflowR | zerogetR | ackR
deriving DecidableEq, Repr, Inhabited

/-- The arguments of a request layout by name; a layout ignores those it does not use. R150, R152 to R166. For
address define `addr` is `ADDRDEF_REQ_ADDR`, not a device address (R154). -/
structure ReqArgs where
  addr : Byte := 0
  typemode : Byte := 0
  measuringmode : Byte := 0
  mode : Byte := 0
  newAddress : Byte := 0
  flowRaw : Half := 0
  shift : Half := 0
  rate : Int := 0
deriving DecidableEq, Repr, Inhabited

end Sys2Proof
end

