-- ==== Sys2Proof/Config.lean ====
section
/-! DEFINITION. What an implementation fixes: the shape of the field tables and the open parameters of the unit and of the
host, and the constants without a body that stand for every value the spec leaves open. -/

namespace Sys2Proof

/-- A member of an EnumDomain: a name and a non-negative integer. R23. -/
structure Member where
  name : String
  value : Nat
deriving DecidableEq, Repr, Inhabited

/-- A FieldSpec `(mask : uint8, shift : uint3, domain)` and the label its errors carry. R22. -/
structure FieldSpec where
  name : String
  mask : Byte
  shift : BitVec 3
  domain : List Member
deriving DecidableEq, Repr, Inhabited

/-- A field table: FieldSpecs in declaration order. R24. -/
abbrev Table := List FieldSpec

/-- The parameters of the unit the spec leaves OPEN, before well-formedness is asked of them. R9, D27, D29, D30. -/
structure Params where
  t1 : Table
  t2 : Table
  stateRspOff1 : Fin 10
  stateRspOff2 : Fin 10
  addrdefReqAddr : Byte
deriving DecidableEq, Repr, Inhabited

/-- The two protocol variants. R3. -/
inductive Variant where
  | a
  | b
deriving DecidableEq, Repr, Inhabited

/-- The write half of a read-modify-write in variant a, a parameter of the host: `plug` is the spec's own reading
(D28), a PLUG request with the new member's value; `given` names other requests, one per valve setting (their `addr` is
replaced by the device address). R214. -/
inductive WriteBack where
  | plug
  | given (closed regulation : ReqLayout × ReqArgs)
deriving DecidableEq, Repr, Inhabited

/-- What is fixed for a session's lifetime: the variant, DOC's `max_flow` (R39, R192), the address supplied at
construction in variant b (R201), where the valve field lies in `T1` and its two member values (R209), and the host's
OPEN parameters: D28 (`writeBack`), D31 (`zeroShiftSigned`), D33 (`validationFirst`), D34 (`readdressUpdates`), N19
(`splitFlagReads`). -/
structure HostParams where
  variant : Variant
  maxFlow : Rat
  busAddress : Byte
  iPlug : Nat
  valveClosed : Byte
  valveRegulation : Byte
  validationFirst : Bool
  zeroShiftSigned : Bool
  readdressUpdates : Bool
  splitFlagReads : Bool
  writeBack : WriteBack
deriving DecidableEq, Repr, Inhabited

/-- The parameters the unit is built with: OPEN (D27, D29, D30; log entry 2). -/
opaque Config.params : Params

/-- The parameters the session is constructed with: OPEN (log entry 4). -/
opaque Config.hostParams : HostParams

/-- ROUND_HALF: does `round` take the exact half between `n` and `n + 1` up? OPEN (I5, D32; log entry 11). -/
opaque Config.roundHalfUp : Int → Bool

/-- FLOW_RANGE_POLICY: the register written for a rounded flow outside -32768 to 32767, or `none` when the conversion
fails. OPEN (I7, D32; log entry 11). -/
opaque Config.flowOutOfRange : Int → Option Half

end Sys2Proof
end

