-- ==== Sys2Proof/Machine/Tables.lean ====
section
/-! DEFINITION. DOC's unaudited literals as tables, each literal in this one place (R274): the command codes (R75), the
positions of every request and response field (R81, R152 to R167), the baud-rate codes (R164), FILL (R80), the register map of
variant b (R58). The decoder, the encoder and the meanings read these tables and repeat none of their numbers. -/

namespace Sys2Proof

/-! ### Requests -/

/-- FILL, the value of a request position no layout populates (R80, D14; log entry 7). -/
def fill : Byte := 0x00

/-- The command codes (R75). -/
def ReqLayout.code : ReqLayout → Byte
  | .getstate => 0x01
  | .addrdef => 0x02
  | .rdflow => 0x11
  | .baud => 0x16
  | .regime => 0x18
  | .readdr => 0x1B
  | .recov => 0x1F
  | .plug => 0x20
  | .zeroset => 0x23
  | .zeroget => 0x23
  | .setflow => 0x25

/-- What a one-byte slot of a request carries; `flag` is a constant that tells two layouts of one code apart (R76). -/
inductive ByteArg where
  | typemode
  | measuringmode
  | mode
  | newAddress
  | rateCode
  | flag (b : Byte)
deriving DecidableEq, Repr

/-- What a 16-bit slot carries. -/
inductive HalfArg where
  | flowRaw
  | shift
deriving DecidableEq, Repr

/-- A slot of a request: one byte at frame position `p`, or 16 bits at `p` and `p + 1` (R81). -/
inductive ArgSlot where
  | byte (p : Fin 10) (v : ByteArg)
  | half (p : Fin 9) (v : HalfArg)
deriving DecidableEq, Repr

/-- The position of the zero-adjust flag (R76). -/
abbrev zeroFlagPos : Fin 10 := 3

/-- The positions of the request arguments (R75's column 'payload bytes used'; R152 to R166). -/
def ReqLayout.slots : ReqLayout → List ArgSlot
  | .getstate => []
  | .addrdef => []
  | .rdflow => []
  | .baud => [.byte 2 .rateCode]
  | .regime => [.byte 1 .typemode, .byte 3 .measuringmode]
  | .readdr => [.byte 2 .newAddress]
  | .recov => [.byte 1 .mode]
  | .plug => [.byte 2 .mode]
  | .zeroset => [.byte zeroFlagPos (.flag 0x01), .half 4 .shift]
  | .zeroget => [.byte zeroFlagPos (.flag 0x00)]
  | .setflow => [.half 2 .flowRaw]

/-- The baud-rate codes, in the order DOC gives them (R164). -/
def rateCodes : List (Int × Byte) := [(9600, 0x00), (19200, 0xFF), (38400, 0x01)]

/-- `ratecode`: the code of a rate, an integer (R163); none for every rate outside the table (R164). -/
def ratecode (rate : Int) : Option Byte := (rateCodes.find? fun rc => rc.1 == rate).map Prod.snd

/-- The rate a code stands for. -/
def rateOfCode (c : Byte) : Option Int := (rateCodes.find? fun rc => rc.2 == c).map Prod.fst

/-! ### Responses -/

/-- The response layout that belongs to a request (R75, R77, R168). -/
def ReqLayout.response : ReqLayout → RspLayout
  | .getstate => .getstateR
  | .addrdef => .addrdefR
  | .rdflow => .rdflowR
  | .zeroget => .zerogetR
  | .regime | .setflow | .recov | .plug | .readdr | .baud | .zeroset => .ackR

/-- Where the serial number begins in an address-define response (R155). -/
abbrev rspSerialPos : Fin 9 := 5

/-- Where the assigned address lies in it (R155). -/
abbrev rspAddressPos : Fin 10 := 7

/-- Where the measured flow begins in a read-flow response (R158). -/
abbrev rspFlowPos : Fin 9 := 2

/-- Where the setpoint begins in it (R158). -/
abbrev rspSetpointPos : Fin 9 := 4

/-- Where the shift begins in a zero-get response (R167). -/
abbrev rspShiftPos : Fin 9 := 4

/-! ### The register map of variant b (R58) -/

/-- The seven registers of the device in variant b; DOC gives no other (R58). The host reaches them through the transport
alone. No session operation uses the first two or the last (R202, N19). -/
inductive Register where
  /-- net address: decoded by the host. -/
  | netAddress
  /-- device number: decoded by the host; its meaning is not in DOC (N19). -/
  | deviceNumber
  /-- flags-1, configuration: the first status value, decoded by the unit with `T1`. -/
  | flags1
  /-- flags-2, status: the second status value, decoded by the unit with `T2`. -/
  | flags2
  /-- flow setpoint, raw fixed-point: decoded by the host, RegisterConverter. -/
  | setpoint
  /-- flow reading, raw fixed-point: decoded by the host, RegisterConverter. -/
  | flow
  /-- comm speed: decoded by the host; its encoding is not in DOC (N19). -/
  | commSpeed
deriving DecidableEq, Repr

/-- The register addresses (R58). -/
@[simp] def Register.address : Register → Half
  | .netAddress => 0x0000
  | .deviceNumber => 0x0001
  | .flags1 => 0x0002
  | .flags2 => 0x0003
  | .setpoint => 0x0004
  | .flow => 0x0005
  | .commSpeed => 0x0006

end Sys2Proof
end

