-- ==== Sys2Proof/Syntax.lean ====
section
/-! DEFINITION. The instructions: one constructor per row of spec/opcode_table.json. Operands of the unit operations are
the slots of the request record (R36), not bits of a word (R71). -/

namespace Sys2Proof

inductive Instr where
  /-- DEC1: decode the first status value. R102. -/
  | dec1 (raw1 : StatusValue)
  /-- DEC2: decode the second status value. R103. -/
  | dec2 (raw2 : StatusValue)
  /-- DECW: decode the pair. R104. -/
  | decw (raw1 raw2 : StatusValue)
  /-- ENC1: encode a first-byte field sequence. R106. -/
  | enc1 (seq : List FieldValue)
  /-- UPD1: replace one field of the first byte. R107. -/
  | upd1 (raw1 : StatusValue) (idx : Nat) (val : Byte)
  /-- CSUM: checksum of a payload. R130. -/
  | csum (p : Payload)
  /-- BUILD: build a frame. R132. -/
  | build (cmd : Byte) (args : Args) (addr : Byte)
  /-- VALID: validate a frame. R133. -/
  | valid (f : Frame)
  /-- GETSTATE request. R152. -/
  | getstate (addr : Byte)
  /-- ADDRDEF request; `reqAddr` is the open parameter `ADDRDEF_REQ_ADDR`, an argument of the layout (D30). R154. -/
  | addrdef (reqAddr : Byte)
  /-- RDFLOW request. R157. -/
  | rdflow (addr : Byte)
  /-- BAUD request; `rate` is any integer, bits per second. R163. -/
  | baud (rate : Int) (addr : Byte)
  /-- REGIME request. R156. -/
  | regime (typemode measuringmode addr : Byte)
  /-- READDR request. R162. -/
  | readdr (newAddress addr : Byte)
  /-- RECOV request. R160. -/
  | recov (mode addr : Byte)
  /-- PLUG request. R161. -/
  | plug (mode addr : Byte)
  /-- ZEROSET request. R165. -/
  | zeroset (shift : Half) (addr : Byte)
  /-- ZEROGET request. R166. -/
  | zeroget (addr : Byte)
  /-- SETFLOW request. R159. -/
  | setflow (flowRaw : Half) (addr : Byte)
  /-- GETSTATE.R response layout. R153. -/
  | getstateR (r : Frame)
  /-- ADDRDEF.R response layout. R155. -/
  | addrdefR (r : Frame)
  /-- RDFLOW.R response layout. R158. -/
  | rdflowR (r : Frame)
  /-- ZEROGET.R response layout. R167. -/
  | zerogetR (r : Frame)
  /-- ACK.R response layout. R168. -/
  | ackR (r : Frame)
deriving DecidableEq, Repr

end Sys2Proof
end

