-- ==== Sys2Proof/WellFormed.lean ====
section
/-! DEFINITION. Well-formedness: of a configuration (R25, R26, D29), which a configuration of the unit carries as a proof,
and of an instruction (it has an encoding). -/

namespace Sys2Proof

/-- R26 (b): the member's value, shifted into place over all integer bits, lies wholly inside the mask. -/
abbrev FieldSpec.Fits (fs : FieldSpec) (m : Member) : Prop :=
  (m.value <<< fs.shift.toNat) &&& fs.mask.toNat = m.value <<< fs.shift.toNat

/-- R26: distinct values, distinct names, every value inside the mask. -/
abbrev FieldSpec.WF (fs : FieldSpec) : Prop :=
  (fs.domain.map Member.value).Nodup ∧ (fs.domain.map Member.name).Nodup ∧ ∀ m ∈ fs.domain, fs.Fits m

/-- R25: the masks of one table do not overlap; together they need not cover the byte. -/
abbrev Table.Disjoint (t : Table) : Prop :=
  t.Pairwise fun x y => x.mask &&& y.mask = 0

/-- R25 and R26 for one table. -/
abbrev Table.WF (t : Table) : Prop :=
  Table.Disjoint t ∧ ∀ fs ∈ t, fs.WF

/-- The status bytes of a GETSTATE response lie at positions 1 to 7 (R153, D29). -/
abbrev RspOffset (p : Fin 10) : Prop := 1 ≤ p.val ∧ p.val ≤ 7

/-- R25 and R26 for both tables (nothing links `T1` to `T2`), and D29. -/
abbrev Params.WF (p : Params) : Prop :=
  Table.WF p.t1 ∧ Table.WF p.t2 ∧ RspOffset p.stateRspOff1 ∧ RspOffset p.stateRspOff2

/-- A configuration of the unit. R26: parameters that fail well-formedness are not a configuration of the unit, so
none can be built from them (I1, log entry 3). -/
structure UnitConfig extends Params where
  wf : toParams.WF
deriving DecidableEq, Repr

/-- The configuration made from parameters, or none where they are ill-formed (I1: refuse). -/
def UnitConfig.ofParams (p : Params) : Option UnitConfig :=
  if h : p.WF then some ⟨p, h⟩ else none

/-- The least configuration: two empty tables. Used only where `Config.params` is ill-formed, so that `configured` is
total; every well-formed configuration is a possible value of `configured`. -/
def UnitConfig.empty : UnitConfig :=
  ⟨⟨[], [], 1, 1, 0⟩, by decide⟩

/-- The configuration the unit is built with (R21, R41: 'the configured tables'). -/
def UnitConfig.configured : UnitConfig :=
  if h : Config.params.WF then ⟨Config.params, h⟩ else .empty

/-- An instruction has an encoding: every one but a BAUD request at a rate without a code (R164), which the unit answers
with ValidationError before any frame is built. -/
def Instr.wf : Instr → Bool
  | .baud rate _ => (ratecode rate).isSome
  | .dec1 _ | .dec2 _ | .decw _ _ | .enc1 _ | .upd1 _ _ _ | .csum _ | .build _ _ _ | .valid _ => true
  | .getstate _ | .addrdef _ | .rdflow _ | .regime _ _ _ | .readdr _ _ | .recov _ _ | .plug _ _ => true
  | .zeroset _ _ | .zeroget _ | .setflow _ _ => true
  | .getstateR _ | .addrdefR _ | .rdflowR _ | .zerogetR _ | .ackR _ => true

end Sys2Proof
end

