-- ==== Sys2Proof/Machine/Operands.lean ====
section
/-! DEFINITION. Every operand form and primitive the operation rules use: 16-bit fields and their byte order, positions
of a frame, the checksum, field extraction, domain lookup, field insertion, status values. R11, R13, R17, R81. -/

namespace Sys2Proof

/-! ### 16-bit quantities -/

/-- `v[15:8]`, the byte at the lower position (R53, R54; log entry 5). -/
def hiByte (v : Half) : Byte := v.extractLsb' 8 8

/-- `v[7:0]`, the byte at the higher position (R53, R54; log entry 5). -/
def loByte (v : Half) : Byte := v.extractLsb' 0 8

/-- The big-endian reading of two bytes: `hi * 256 + lo` (R13, R53, R54). -/
def be16 (hi lo : Byte) : Half := hi ++ lo

/-- `s16`: the signed reading of a `uint16` (R11). -/
def s16 (v : Half) : Int := if v.toNat < 32768 then (v.toNat : Int) else (v.toNat : Int) - 65536

/-- `zext_16`: an encoded byte as it is written to a register (R32, R112, D10). -/
def zext16 (v : Byte) : Half := v.setWidth 16

/-! ### Frame access (R13, R50, R60) -/

/-- `FrameRead(F, a, 1) = F[a]`. -/
def frameRead (f : Frame) : Fin 10 → Byte
  | 0 => f.payload.cmd
  | 1 => f.payload.args.a1
  | 2 => f.payload.args.a2
  | 3 => f.payload.args.a3
  | 4 => f.payload.args.a4
  | 5 => f.payload.args.a5
  | 6 => f.payload.args.a6
  | 7 => f.payload.addr
  | 8 => f.ckHi
  | 9 => f.ckLo

/-- `FrameRead(F, a, 2) = F[a] * 256 + F[a+1]`; no alignment rule (R57). -/
def frameRead16 (f : Frame) (a : Fin 9) : Half :=
  be16 (frameRead f a.castSucc) (frameRead f a.succ)

/-- `FrameWrite(F, a, 1, v)`: a new frame (R20). -/
def frameWrite (f : Frame) (a : Fin 10) (v : Byte) : Frame :=
  match a with
  | 0 => { f with payload := { f.payload with cmd := v } }
  | 1 => { f with payload := { f.payload with args := { f.payload.args with a1 := v } } }
  | 2 => { f with payload := { f.payload with args := { f.payload.args with a2 := v } } }
  | 3 => { f with payload := { f.payload with args := { f.payload.args with a3 := v } } }
  | 4 => { f with payload := { f.payload with args := { f.payload.args with a4 := v } } }
  | 5 => { f with payload := { f.payload with args := { f.payload.args with a5 := v } } }
  | 6 => { f with payload := { f.payload with args := { f.payload.args with a6 := v } } }
  | 7 => { f with payload := { f.payload with addr := v } }
  | 8 => { f with ckHi := v }
  | 9 => { f with ckLo := v }

/-- `FrameWrite(F, a, 2, v)`: `v[15:8]` at `a`, `v[7:0]` at `a + 1`. -/
def frameWrite16 (f : Frame) (a : Fin 9) (v : Half) : Frame :=
  frameWrite (frameWrite f a.castSucc (hiByte v)) a.succ (loByte v)

/-- `F` with bit `j` of the byte at position `a` flipped (R135). -/
def frameFlip (f : Frame) (a : Fin 10) (j : Fin 8) : Frame :=
  frameWrite f a (frameRead f a ^^^ BitVec.twoPow 8 j.val)

/-! ### The checksum (R130) -/

/-- The exact sum of the eight payload bytes, each an unsigned number 0 to 255. -/
def payloadSum (p : Payload) : Nat :=
  p.cmd.toNat + p.args.a1.toNat + p.args.a2.toNat + p.args.a3.toNat + p.args.a4.toNat + p.args.a5.toNat
    + p.args.a6.toNat + p.addr.toNat

/-- `csum(P)`: the sum modulo 65536. -/
def checksum (p : Payload) : Half := BitVec.ofNat 16 (payloadSum p)

/-- `F[8] * 256 + F[9]`, the trailer of a frame (R53, R133). -/
def trailer (f : Frame) : Half := be16 f.ckHi f.ckLo

/-- A payload with its checksum appended big-endian at positions 8 and 9 (R132). -/
def sealFrame (p : Payload) : Frame :=
  { payload := p, ckHi := hiByte (checksum p), ckLo := loByte (checksum p) }

/-! ### Bit fields (R100, R101, R105) -/

/-- `ext(raw, fs) = (raw & fs.mask) >> fs.shift` (R100). -/
def extractField (raw : Byte) (fs : FieldSpec) : Byte := (raw &&& fs.mask) >>> fs.shift

/-- `member(dom, v)`: the member whose integer value is `v`, or none; never a default (R101, R82). -/
def memberOf (dom : List Member) (v : Byte) : Option Member := dom.find? fun m => m.value == v.toNat

/-- `ins(fs, v) = v << fs.shift` (R105): by R26 (b) a `uint8` for every member value of a well-formed table. -/
def insertField (fs : FieldSpec) (v : Byte) : Byte := v <<< fs.shift

/-- The bits some mask of the table covers. -/
def covered (t : Table) : Byte := t.foldr (fun fs acc => fs.mask ||| acc) 0

/-- `gap(T)`: the reserved bits of a table (R25). -/
def gap (t : Table) : Byte := ~~~ covered t

/-! ### Status values (R32, R112) -/

/-- The byte a decode uses: a register's bits 15 to 8 are ignored. -/
def StatusValue.reduce : StatusValue → Byte
  | .byte v => v
  | .reg v => loByte v

end Sys2Proof
end

