-- ==== Sys2Proof/Decode.lean ====
section
/-! DEFINITION. Encodings: the request record (R36, R71), the arguments of a request layout laid out and read back by the
tables of Machine/Tables.lean (R80, R81, R274), the decoder of requests, total and rejecting by name, and after it the
encoder. -/

namespace Sys2Proof

/-! ### Requests -/

/-- The operand slots of a unit request. A slot the operation does not use is ignored. R36. -/
structure Slots where
  raw1 : StatusValue := .byte 0
  raw2 : StatusValue := .byte 0
  seq : List FieldValue := []
  idx : Nat := 0
  val : Byte := 0
  cmd : Byte := 0
  args : Args := {}
  addr : Byte := 0
  p : Payload := {}
  f : Frame := {}
deriving DecidableEq, Repr

/-- What the host presents to the unit. `unitOp`: a layer U request, selector and slots (R71). `reqLayout`: a request
layout by name with its arguments (R83, R150). `reqFrame`: a request layout given by the 80 bits of its row (R73, R85).
`rspLayout`: a received frame with the request just sent, which alone selects its layout (R77, R151). -/
inductive Request where
  | unitOp (op : BitVec 4) (x : Slots)
  | reqLayout (l : ReqLayout) (a : ReqArgs)
  | reqFrame (f : Frame)
  | rspLayout (sent : ReqLayout) (r : Frame)
deriving DecidableEq, Repr

/-- Why a frame stands for no request layout. -/
inductive DecodeError where
  /-- No layout has this command code (R78). -/
  | noLayout (cmd : Byte)
  /-- Code 35 with byte 3 neither 0 nor 1 (R76). -/
  | zeroFlag (b : Byte)
  /-- A position the layout does not populate is not FILL, so no layout produces the frame (R80). -/
  | fillNotZero (l : ReqLayout)
  /-- Byte 2 of a BAUD frame is no rate code (R164). -/
  | noRate (c : Byte)
deriving DecidableEq, Repr

/-- What the decoder answers. `illegalOp` is no rejection: the unit answers it with IllegalOp (R72, R237). -/
inductive Decoded where
  | instr (i : Instr)
  | illegalOp (op : BitVec 4)
  | rejected (e : DecodeError)
deriving DecidableEq, Repr

/-! ### The arguments of a request layout (R80, R81, R150) -/

/-- Six positions of FILL. -/
def fillArgs : Args := { a1 := fill, a2 := fill, a3 := fill, a4 := fill, a5 := fill, a6 := fill }

/-- Argument bytes as a frame, so that the table's frame positions reach them. -/
def argsFrame (g : Args) : Frame := { payload := { args := g } }

/-- The byte a one-byte slot carries, or the rate it has no code for (R164). -/
def ReqArgs.byte (a : ReqArgs) : ByteArg → Except Int Byte
  | .typemode => .ok a.typemode
  | .measuringmode => .ok a.measuringmode
  | .mode => .ok a.mode
  | .newAddress => .ok a.newAddress
  | .rateCode =>
    match ratecode a.rate with
    | some c => .ok c
    | none => .error a.rate
  | .flag b => .ok b

/-- The pattern a 16-bit slot carries. -/
def ReqArgs.half (a : ReqArgs) : HalfArg → Half
  | .flowRaw => a.flowRaw
  | .shift => a.shift

/-- The arguments written into their slots, over `g` (R81). -/
def writeSlots (a : ReqArgs) : List ArgSlot → Args → Except Int Args
  | [], g => .ok g
  | .byte p v :: rest, g =>
    match a.byte v with
    | .error rate => .error rate
    | .ok b => writeSlots a rest (frameWrite (argsFrame g) p b).payload.args
  | .half p v :: rest, g => writeSlots a rest (frameWrite16 (argsFrame g) p (a.half v)).payload.args

/-- The six argument bytes of a layout: its arguments in their slots, FILL elsewhere (R150); or the rate that has no
code. -/
def layoutArgs (l : ReqLayout) (a : ReqArgs) : Except Int Args := writeSlots a l.slots fillArgs

/-- A one-byte argument taken from a frame. A flag carries no argument: selecting the layout has read it. -/
def ReqArgs.withByte (a : ReqArgs) (v : ByteArg) (b : Byte) : Except DecodeError ReqArgs :=
  match v with
  | .typemode => .ok { a with typemode := b }
  | .measuringmode => .ok { a with measuringmode := b }
  | .mode => .ok { a with mode := b }
  | .newAddress => .ok { a with newAddress := b }
  | .rateCode =>
    match rateOfCode b with
    | some rate => .ok { a with rate := rate }
    | none => .error (.noRate b)
  | .flag _ => .ok a

/-- A 16-bit argument taken from a frame. -/
def ReqArgs.withHalf (a : ReqArgs) (v : HalfArg) (h : Half) : ReqArgs :=
  match v with
  | .flowRaw => { a with flowRaw := h }
  | .shift => { a with shift := h }

/-- The arguments read back from their slots in `g`, into `a`. -/
def readSlots (g : Args) : List ArgSlot → ReqArgs → Except DecodeError ReqArgs
  | [], a => .ok a
  | .byte p v :: rest, a =>
    match a.withByte v (frameRead (argsFrame g) p) with
    | .error e => .error e
    | .ok a' => readSlots g rest a'
  | .half p v :: rest, a => readSlots g rest (a.withHalf v (frameRead16 (argsFrame g) p))

/-! ### Selecting a layout (R75, R76, R77) -/

def ReqLayout.all : List ReqLayout :=
  [.getstate, .addrdef, .rdflow, .baud, .regime, .readdr, .recov, .plug, .zeroset, .zeroget, .setflow]

/-- Does the slot, if it is a flag, stand in these argument bytes? (R76) -/
def ArgSlot.flagIn (g : Args) : ArgSlot → Bool
  | .byte p (.flag b) => frameRead (argsFrame g) p == b
  | .byte _ .typemode | .byte _ .measuringmode | .byte _ .mode | .byte _ .newAddress | .byte _ .rateCode => true
  | .half _ _ => true

/-- Does byte 0, and the flag where the code is shared, select the layout? (R76, R77) -/
def ReqLayout.selectedBy (cmd : Byte) (g : Args) (l : ReqLayout) : Bool :=
  l.code == cmd && l.slots.all (ArgSlot.flagIn g)

/-- The layout a request frame is selected by, or the name of the rejection. -/
def selectLayout (cmd : Byte) (g : Args) : Except DecodeError ReqLayout :=
  match ReqLayout.all.find? (ReqLayout.selectedBy cmd g) with
  | some l => .ok l
  | none =>
    if cmd = ReqLayout.code .zeroset then .error (.zeroFlag (frameRead (argsFrame g) zeroFlagPos))
    else .error (.noLayout cmd)

/-! ### The decoder -/

/-- Layer U (R71): eight selectors, the other eight reserved (R72). -/
def decodeUnitOp (op : BitVec 4) (x : Slots) : Decoded :=
  match op.toNat with
  | 0 => .instr (.dec1 x.raw1)
  | 1 => .instr (.dec2 x.raw2)
  | 2 => .instr (.decw x.raw1 x.raw2)
  | 3 => .instr (.enc1 x.seq)
  | 4 => .instr (.upd1 x.raw1 x.idx x.val)
  | 5 => .instr (.csum x.p)
  | 6 => .instr (.build x.cmd x.args x.addr)
  | 7 => .instr (.valid x.f)
  | _ => .illegalOp op

/-- Layer W requests by name (R152 to R166). -/
def decodeReqLayout (l : ReqLayout) (a : ReqArgs) : Instr :=
  match l with
  | .getstate => .getstate a.addr
  | .addrdef => .addrdef a.addr
  | .rdflow => .rdflow a.addr
  | .baud => .baud a.rate a.addr
  | .regime => .regime a.typemode a.measuringmode a.addr
  | .readdr => .readdr a.newAddress a.addr
  | .recov => .recov a.mode a.addr
  | .plug => .plug a.mode a.addr
  | .zeroset => .zeroset a.shift a.addr
  | .zeroget => .zeroget a.addr
  | .setflow => .setflow a.flowRaw a.addr

/-- The arguments of a request frame (R81, R152 to R166), provided the layout itself puts those very six bytes there: every
position outside its slots holds FILL (R80, R85). The trailer is computed and takes no part (R85). -/
def decodeFrameArgs (l : ReqLayout) (g : Args) (addr : Byte) : Decoded :=
  match readSlots g l.slots { addr := addr } with
  | .error e => .rejected e
  | .ok a =>
    match layoutArgs l a with
    | .error _ => .rejected (.fillNotZero l)
    | .ok g' => if g' = g then .instr (decodeReqLayout l a) else .rejected (.fillNotZero l)

/-- Layer W requests by their 80 bits (R73, R75, R85). -/
def decodeReqFrame (f : Frame) : Decoded :=
  match selectLayout f.payload.cmd f.payload.args with
  | .ok l => decodeFrameArgs l f.payload.args f.payload.addr
  | .error e => .rejected e

/-- Layer W responses: the layout of the request just sent, never the response's own bytes (R77, R151). -/
def decodeRspLayout (sent : ReqLayout) (r : Frame) : Instr :=
  match sent.response with
  | .getstateR => .getstateR r
  | .addrdefR => .addrdefR r
  | .rdflowR => .rdflowR r
  | .zerogetR => .zerogetR r
  | .ackR => .ackR r

/-- The decoder of requests: total; every request is an instruction, a reserved selector, or rejected by name. -/
def decodeRequest : Request → Decoded
  | .unitOp op x => decodeUnitOp op x
  | .reqLayout l a => .instr (decodeReqLayout l a)
  | .reqFrame f => decodeReqFrame f
  | .rspLayout sent r => .instr (decodeRspLayout sent r)

/-! ### Words of the opcode table -/

/-- Byte `p` of an 80-bit frame word: byte 0 is bits 79 to 72 (R73). -/
def wordByte (w : Nat) (p : Nat) : Byte := BitVec.ofNat 8 (w >>> (72 - 8 * p))

/-- The ten bytes of an 80-bit frame word. -/
def frameOfWord (w : Nat) : Frame :=
  { payload :=
      { cmd := wordByte w 0
        args :=
          { a1 := wordByte w 1, a2 := wordByte w 2, a3 := wordByte w 3
            a4 := wordByte w 4, a5 := wordByte w 5, a6 := wordByte w 6 }
        addr := wordByte w 7 }
    ckHi := wordByte w 8
    ckLo := wordByte w 9 }

/-- The 80-bit number a frame is in the opcode table: its bytes read big-endian (R73). -/
def wordOfFrame (f : Frame) : Nat :=
  [f.payload.cmd, f.payload.args.a1, f.payload.args.a2, f.payload.args.a3, f.payload.args.a4, f.payload.args.a5,
    f.payload.args.a6, f.payload.addr, f.ckHi, f.ckLo].foldl (fun n b => n * 256 + b.toNat) 0

/-- The request a word of the opcode table stands for: up to one byte it is the 4-bit selector of a UNITREQ row, with
every operand slot zero (the table gives the slots no bits); wider, it is the 80 bits of a request frame. -/
def requestOfWord (nbits w : Nat) : Request :=
  if nbits ≤ 8 then .unitOp (BitVec.ofNat 4 w) {} else .reqFrame (frameOfWord w)

/-- The instruction the decoder reads from a word of the opcode table. A response row has no word of its own: its bits
select nothing (R77, R85; log entry 8). -/
def decodeTableWord (nbits w : Nat) : Option Instr :=
  match decodeRequest (requestOfWord nbits w) with
  | .instr i => some i
  | .illegalOp _ => none
  | .rejected _ => none

/-! ### The encoder -/

/-- The layout and the arguments an instruction of layer W stands for; none for every other instruction. -/
def Instr.layout : Instr → Option (ReqLayout × ReqArgs)
  | .getstate addr => some (.getstate, { addr := addr })
  | .addrdef reqAddr => some (.addrdef, { addr := reqAddr })
  | .rdflow addr => some (.rdflow, { addr := addr })
  | .baud rate addr => some (.baud, { rate := rate, addr := addr })
  | .regime t m addr => some (.regime, { typemode := t, measuringmode := m, addr := addr })
  | .readdr n addr => some (.readdr, { newAddress := n, addr := addr })
  | .recov m addr => some (.recov, { mode := m, addr := addr })
  | .plug m addr => some (.plug, { mode := m, addr := addr })
  | .zeroset v addr => some (.zeroset, { shift := v, addr := addr })
  | .zeroget addr => some (.zeroget, { addr := addr })
  | .setflow v addr => some (.setflow, { flowRaw := v, addr := addr })
  | .dec1 _ | .dec2 _ | .decw _ _ | .enc1 _ | .upd1 _ _ _ | .csum _ | .build _ _ _ | .valid _ => none
  | .getstateR _ | .addrdefR _ | .rdflowR _ | .zerogetR _ | .ackR _ => none

/-- The frame of a layout, its checksum computed (R73, R85); none for a rate without a code. -/
def layoutEncoding (l : ReqLayout) (a : ReqArgs) : Option Frame :=
  match layoutArgs l a with
  | .ok g => some (sealFrame { cmd := l.code, args := g, addr := a.addr })
  | .error _ => none

/-- The frame of a request layout; none for a rate without a code and for the instructions that are no request layout. -/
def encodeFrame (i : Instr) : Option Frame :=
  match i.layout with
  | some (l, a) => layoutEncoding l a
  | none => none

/-- The request an instruction is presented as. A response is presented with a request its layout belongs to. -/
def encode (i : Instr) : Option Request :=
  match i with
  | .dec1 r => some (.unitOp 0 { raw1 := r })
  | .dec2 r => some (.unitOp 1 { raw2 := r })
  | .decw r1 r2 => some (.unitOp 2 { raw1 := r1, raw2 := r2 })
  | .enc1 seq => some (.unitOp 3 { seq := seq })
  | .upd1 r idx val => some (.unitOp 4 { raw1 := r, idx := idx, val := val })
  | .csum p => some (.unitOp 5 { p := p })
  | .build cmd args addr => some (.unitOp 6 { cmd := cmd, args := args, addr := addr })
  | .valid f => some (.unitOp 7 { f := f })
  | .getstateR r => some (.rspLayout .getstate r)
  | .addrdefR r => some (.rspLayout .addrdef r)
  | .rdflowR r => some (.rspLayout .rdflow r)
  | .zerogetR r => some (.rspLayout .zeroget r)
  | .ackR r => some (.rspLayout .regime r)
  | .getstate _ | .addrdef _ | .rdflow _ | .baud _ _ | .regime _ _ _ | .readdr _ _ | .recov _ _ | .plug _ _
  | .zeroset _ _ | .zeroget _ | .setflow _ _ => (encodeFrame i).map .reqFrame

end Sys2Proof
end

