-- ==== Sys2Proof/Machine/State.lean ====
section
/-! DEFINITION. The state: the constant configuration, the request and response records of the unit (R36), and the host's
state (R39, 43_host_reference.md); the errors (R230, R231); the reasons a step can stop; the state after reset (R41). -/

namespace Sys2Proof.Machine

/-! ### Status and errors (R231) -/

/-- The status names; their numbers are `Status.code`. R231. -/
inductive Status where
  | ok
  | checksumError
  | domainError
  | shapeError
  | validationError
  | notIdentifiedError
  | transportError
  | illegalOp
deriving DecidableEq, Repr, Inhabited

/-- An error of the unit with the detail it records, no less than R114 and R231 ask. -/
inductive UnitError where
  /-- ChecksumError: computed sum and received trailer (R232). -/
  | checksum (computed received : Half)
  /-- DomainError: table, position, field name, offending value (R233). -/
  | domain (tab : Tab) (pos : Nat) (field : String) (val : Byte)
  /-- ShapeError, wrong length: expected and actual (R234). -/
  | shapeLength (expected got : Nat)
  /-- ShapeError, wrong identity: the offending position, and the FieldSpec reference found there (R106); UPD1 finds none,
  its `idx` is past the table (R107). -/
  | shapeIdentity (pos : Nat) (got : Option (Tab × Nat))
  /-- ValidationError of the rate encoder: the rejected rate (R164, R235). -/
  | validation (rate : Int)
  /-- IllegalOp: the selector (R237). -/
  | illegalOp (op : BitVec 4)
deriving DecidableEq, Repr

/-! ### The response record (R36) -/

/-- The response slots. A slot an operation does not fill is absent. `raw1` to `shift` are the named fields of the
response layouts (R151). -/
structure Response where
  status : Status := .ok
  info : Option UnitError := none
  fields : Option (List FieldValue) := none
  byte : Option Byte := none
  writeNeeded : Option Bool := none
  sum : Option Half := none
  frame : Option Frame := none
  ok : Option Bool := none
  raw1 : Option Byte := none
  raw2 : Option Byte := none
  address : Option Byte := none
  serial : Option Half := none
  flow : Option Int := none
  setpoint : Option Int := none
  shift : Option Half := none
deriving DecidableEq, Repr

/-! ### The host: DeviceSession and its transport -/

/-- The session operations (R204 to R213), the pseudo-operations of R84. None unsets the cached address: DOC says 'until
explicitly invalidated' and names no operation that invalidates (R201, N18); that a set address stays set is the model's
choice (DESIGN CHOICE, D34; log entry 21). -/
inductive Call where
  | identify
  | getState
  | getWritableState
  | setRegime (mode measuringMode : Byte)
  | readFlow
  | writeFlow (flow : Rat)
  | setZero (shift : Half)
  | getZero
  | redefineAddress (newAddress : Byte)
  | setRecoveryMode (mode : Byte)
  | setPlugMode (mode : Byte)
  | setBaudrate (rate : Int)
deriving DecidableEq, Repr

/-- What a session operation returns. In variant b `flow` has no setpoint (R208). -/
inductive CallValue where
  | done
  | address (a : Byte)
  | fields (fs : List FieldValue)
  | flow (measured : Rat) (setpoint : Option Rat)
  | shift (v : Int)
deriving DecidableEq, Repr

/-- What a session operation fails with (R215, R230): an error of the unit, ValidationError with the rejected value
(R192, R235), NotIdentifiedError with the operation refused (R203), TransportError passed through (R195). -/
inductive HostError where
  | unit (e : UnitError)
  | validation (v : Rat)
  | notIdentified (c : Call)
  | transport (detail : Nat)
deriving DecidableEq, Repr

/-- The outcome of a session operation. -/
inductive CallResult where
  | returned (v : CallValue)
  | failed (e : HostError)
deriving DecidableEq, Repr

/-- One call of the transport (R195). -/
inductive TransportCall where
  | write (f : Frame)
  | read (n : Nat)
  | readRegisters (address : Half) (count : Nat)
  | writeRegister (address value : Half)
deriving DecidableEq, Repr

/-- What the transport answers to one call: a failure, opaque to the host, or else the data the call asks for (a `write`
takes none, a `read` takes `frame`, a `readRegisters` takes `reg0` and, for a second register, `reg1`). R195, I12. -/
structure TransportReply where
  error : Option Nat := none
  frame : Frame := {}
  reg0 : Half := 0
  reg1 : Half := 0
deriving DecidableEq, Repr

/-- Which exchange of a session operation is under way: the only one, or for `writeFlow` the read half, the write half
and the setpoint (R196, R209, R214). -/
inductive Leg where
  | only
  | stateRead
  | writeBack
  | setpoint (raw : Half)
deriving DecidableEq, Repr

/-- An exchange of variant a: `sent` is the request layout just sent, which selects the response's layout (R151, R264). -/
structure Exchange where
  call : Call
  leg : Leg
  sent : ReqLayout
deriving DecidableEq, Repr

/-- Where the host is. `building`, `parsing`, `coding`: it waits for the unit's response (to a request layout, to a
response layout, to a codec operation). `writing`, `reading`, `regReading`, `regWriting`: it waits for the transport. -/
inductive Phase where
  | idle
  | building (x : Exchange)
  | writing (x : Exchange) (f : Frame)
  | reading (x : Exchange)
  | parsing (x : Exchange)
  | coding (c : Call)
  | regReading (c : Call) (address : Half) (count : Nat) (rest : List (Half × Nat)) (got : List Half)
  | regWriting (c : Call) (leg : Leg) (address value : Half)
deriving DecidableEq, Repr

/-- The host: what is fixed for the session, DeviceIdentity (R39; once set the address is never unset: DESIGN CHOICE, log
entry 21), its control state, and its two sides to the outside:
`calls` (the caller's, in order) and `inbox` (the transport's answers, in order) come in; `result` and `log` go out. -/
structure HostState where
  params : HostParams
  address : Option Byte
  serial : Option Half
  phase : Phase := .idle
  calls : List Call := []
  inbox : List TransportReply := []
  log : List TransportCall := []
  result : Option CallResult := none
deriving DecidableEq, Repr

/-- The states of the session (R201). -/
inductive SessionState where
  | unidentified
  | identified
deriving DecidableEq, Repr

/-! ### The state -/

/-- The whole machine between two steps. The unit itself keeps nothing (R20): `request` and `response` are the records
of one operation on their way in and out, `config` is constant (R21, log entry 1). -/
structure State where
  config : UnitConfig
  request : Option Request := none
  response : Option Response := none
  host : HostState
deriving DecidableEq, Repr

/-- Why the machine stops with a fault. -/
inductive Fault where
  /-- Raised by the host's step only: it waits for a result the unit's response does not hold. Safe: no run from reset
  reaches it, and the unit never raises it (R15). -/
  | hostProtocol
deriving DecidableEq, Repr

/-- Why a step is refused. -/
inductive Refusal where
  /-- Raised by exec for an instruction that has no meaning yet. Safe. -/
  | notModelled (mnemonic : String)
  /-- Raised by the step for a request frame with no layout (R76, R78, R80, R164). Safe: the spec gives it no layout. -/
  | noRequestLayout (e : DecodeError)
  /-- Raised by the host's step in variant b for a session operation the spec gives no variant b form (R207, R210,
  N19). Safe. -/
  | noVariantBForm (c : Call)
  /-- Raised by the host's step where a conversion is asked of a negative `max_flow` (R192, I8: refuse). Safe. -/
  | negativeMaxFlow
deriving DecidableEq, Repr

/-- The host at construction (R41, R261): address and serial number unset in variant a; in variant b the address is
supplied (log entry 10). -/
def HostState.fresh (p : HostParams) : HostState :=
  { params := p
    address := match p.variant with | .a => none | .b => some p.busAddress
    serial := none }

/-- Right after reset: the configured tables, no request, no response, the host as constructed (R41, R260). -/
def State.reset : State :=
  { config := .configured, host := .fresh Config.hostParams }

end Sys2Proof.Machine
end

