-- ==== Sys2Proof/Machine/Flags.lean ====
section
/-! DEFINITION. The three flag-like outputs of the unit: `status` with its codes, `ok`, `write_needed` (R38, R231). None is
kept, none is read by an operation. -/

namespace Sys2Proof.Machine

/-- The numbers of the `status` slot (R231, D5). -/
def Status.code : Status → Nat
  | .ok => 0
  | .checksumError => 1
  | .domainError => 2
  | .shapeError => 3
  | .validationError => 4
  | .notIdentifiedError => 5
  | .transportError => 6
  | .illegalOp => 7

/-- The status an error of the unit is reported with (R231). -/
def UnitError.status : UnitError → Status
  | .checksum _ _ => .checksumError
  | .domain _ _ _ _ => .domainError
  | .shapeLength _ _ => .shapeError
  | .shapeIdentity _ _ => .shapeError
  | .validation _ => .validationError
  | .illegalOp _ => .illegalOp

/-- The status an error of a session operation counts as (R230, R231). -/
def HostError.status : HostError → Status
  | .unit e => e.status
  | .validation _ => .validationError
  | .notIdentified _ => .notIdentifiedError
  | .transport _ => .transportError

/-- `ok`: the checksum over bytes 0 to 7 equals the trailer (R38, R133). -/
def checksumOk (f : Frame) : Bool := checksum f.payload == trailer f

/-- `write_needed`: the member now decoded at the field differs from the new one. The test is on the field, not on the
byte (R107, R268). -/
def writeNeeded (cur : List FieldValue) (idx : Nat) (val : Byte) : Bool :=
  (cur[idx]?).map FieldValue.val != some val

end Sys2Proof.Machine
end

