-- ==== Sys2Proof/Machine/Ops.lean ====
section
/-! DEFINITION. The named operations over the state: answering a request, raising an error (the unit's whole 'exception
entry', R240), and what an operation's result puts into the response record. -/

namespace Sys2Proof.Machine

/-- What one operation of the unit ends in: its results, or one error (R15, R239). -/
abbrev Result (α : Type) := Except UnitError α

/-- The response to an operation that raised: `status` and `info`, every other slot absent (R240). -/
def Response.raised (e : UnitError) : Response := { status := e.status, info := some e }

/-- The response to an operation whose results `fill` places in their slots. All or nothing (R111). -/
def Response.ofResult {α : Type} (r : Result α) (fill : α → Response) : Response :=
  match r with
  | .ok v => fill v
  | .error e => .raised e

/-- The operation ends: the response is there, the request is gone, the unit is idle again; nothing else changes (R7,
R20, R240). -/
def State.answer (s : State) (r : Response) : State := { s with request := none, response := some r }

/-- Raising an error. There is no handler, nothing is saved and control goes nowhere (R240, R242), so returning from an
error is only that the next request is taken. -/
def State.raise (s : State) (e : UnitError) : State := s.answer (.raised e)

/-- The outcome of an operation of the unit: always a next state (R15). -/
def State.respond {α : Type} (s : State) (r : Result α) (fill : α → Response) : Host.Outcome State Fault Refusal :=
  .next (s.answer (.ofResult r fill))

/-- The session's state: `Identified` exactly when the address is set (R39, R201; log entry 10). -/
def HostState.sessionState (h : HostState) : SessionState :=
  match h.address with
  | some _ => .identified
  | none => .unidentified

end Sys2Proof.Machine
end

