-- ==== Sys2Proof/Machine/ChecksumFrame.lean ====
section
/-! DEFINITION. ChecksumFrame: CSUM, BUILD, VALID (41_checksum_frame.md). They read no table (R137). -/

namespace Sys2Proof.Machine

/-- BUILD: a new frame made from the operands alone; it cannot fail (R132). -/
def buildFrame (cmd : Byte) (args : Args) (addr : Byte) : Frame :=
  sealFrame { cmd := cmd, args := args, addr := addr }

/-- VALID: the one comparison; a mismatch is an error with both sums (R133). -/
def validate (f : Frame) : Result Unit :=
  if checksumOk f then .ok () else .error (.checksum (checksum f.payload) (trailer f))

/-! ### The instructions -/

/-- CSUM (R130). -/
def execCsum (p : Payload) (s : State) : Host.Outcome State Fault Refusal :=
  s.respond (.ok (checksum p)) fun v => { sum := some v }

/-- BUILD (R132). -/
def execBuild (cmd : Byte) (args : Args) (addr : Byte) (s : State) : Host.Outcome State Fault Refusal :=
  s.respond (.ok (buildFrame cmd args addr)) fun f => { frame := some f }

/-- VALID (R133): `ok` is 1 on a match; on a mismatch the operation raises and `ok` is reported as 0, the one result slot
beside `status` and `info` (R38, D17; log entry 6). -/
def execValid (f : Frame) (s : State) : Host.Outcome State Fault Refusal :=
  .next (s.answer { Response.ofResult (validate f) (fun _ => {}) with ok := some (checksumOk f) })

end Sys2Proof.Machine
end

