-- ==== Sys2Proof/Machine/Requests.lean ====
section
/-! DEFINITION. The request layouts of variant a (42_frame_layouts.md). Which position each argument takes is the table
`ReqLayout.slots` (R274); the frame is BUILD's. -/

namespace Sys2Proof.Machine

/-- BUILD of a layout's code, arguments and address (R150); a rate without a code raises before BUILD is asked (R163, R164,
R239). -/
def layoutFrame (l : ReqLayout) (a : ReqArgs) : Result Frame :=
  match layoutArgs l a with
  | .ok g => .ok (buildFrame l.code g a.addr)
  | .error rate => .error (.validation rate)

/-- Answer a request with the frame its layout builds (R150). -/
def respondLayout (l : ReqLayout) (a : ReqArgs) (s : State) : Host.Outcome State Fault Refusal :=
  s.respond (layoutFrame l a) fun f => { frame := some f }

/-! ### The instructions -/

/-- GETSTATE (R152): address only. -/
def execGetstate (addr : Byte) (s : State) : Host.Outcome State Fault Refusal :=
  respondLayout .getstate { addr := addr } s

/-- ADDRDEF (R154): byte 7 is `ADDRDEF_REQ_ADDR`. -/
def execAddrdef (reqAddr : Byte) (s : State) : Host.Outcome State Fault Refusal :=
  respondLayout .addrdef { addr := reqAddr } s

/-- RDFLOW (R157). -/
def execRdflow (addr : Byte) (s : State) : Host.Outcome State Fault Refusal :=
  respondLayout .rdflow { addr := addr } s

/-- BAUD (R163): the code of `rate`, any integer, or ValidationError (R164). -/
def execBaud (rate : Int) (addr : Byte) (s : State) : Host.Outcome State Fault Refusal :=
  respondLayout .baud { rate := rate, addr := addr } s

/-- REGIME (R156). -/
def execRegime (typemode measuringmode addr : Byte) (s : State) : Host.Outcome State Fault Refusal :=
  respondLayout .regime { typemode := typemode, measuringmode := measuringmode, addr := addr } s

/-- READDR (R162). -/
def execReaddr (newAddress addr : Byte) (s : State) : Host.Outcome State Fault Refusal :=
  respondLayout .readdr { newAddress := newAddress, addr := addr } s

/-- RECOV (R160). -/
def execRecov (mode addr : Byte) (s : State) : Host.Outcome State Fault Refusal :=
  respondLayout .recov { mode := mode, addr := addr } s

/-- PLUG (R161). -/
def execPlug (mode addr : Byte) (s : State) : Host.Outcome State Fault Refusal :=
  respondLayout .plug { mode := mode, addr := addr } s

/-- ZEROSET (R165): the shift, carried unchanged, beside the flag. -/
def execZeroset (shift : Half) (addr : Byte) (s : State) : Host.Outcome State Fault Refusal :=
  respondLayout .zeroset { shift := shift, addr := addr } s

/-- ZEROGET (R166). -/
def execZeroget (addr : Byte) (s : State) : Host.Outcome State Fault Refusal :=
  respondLayout .zeroget { addr := addr } s

/-- SETFLOW (R159): the raw pattern of the setpoint. -/
def execSetflow (flowRaw : Half) (addr : Byte) (s : State) : Host.Outcome State Fault Refusal :=
  respondLayout .setflow { flowRaw := flowRaw, addr := addr } s

end Sys2Proof.Machine
end

