-- ==== Sys2Proof/Machine/Responses.lean ====
section
/-! DEFINITION. The response layouts of variant a (42_frame_layouts.md). The first step of each is VALID; no field of a frame
that fails it is ever read (R136, R151). The positions are tables (R274). No layout compares the response with the request (D19). -/

namespace Sys2Proof.Machine

/-- VALID, then the fields `parse` reads (R151). -/
def respondParsed (r : Frame) (parse : Response) (s : State) : Host.Outcome State Fault Refusal :=
  s.respond (validate r) fun _ => parse

/-! ### The instructions -/

/-- GETSTATE.R (R153): the two status bytes, at the configured positions (D29). -/
def execGetstateR (r : Frame) (s : State) : Host.Outcome State Fault Refusal :=
  respondParsed r
    { raw1 := some (frameRead r s.config.stateRspOff1), raw2 := some (frameRead r s.config.stateRspOff2) } s

/-- ADDRDEF.R (R155): serial number and assigned address, from the table's positions. -/
def execAddrdefR (r : Frame) (s : State) : Host.Outcome State Fault Refusal :=
  respondParsed r { address := some (frameRead r rspAddressPos), serial := some (frameRead16 r rspSerialPos) } s

/-- RDFLOW.R (R158): flow and setpoint, both read signed (D21). -/
def execRdflowR (r : Frame) (s : State) : Host.Outcome State Fault Refusal :=
  respondParsed r { flow := some (s16 (frameRead16 r rspFlowPos)), setpoint := some (s16 (frameRead16 r rspSetpointPos)) } s

/-- ZEROGET.R (R167): the shift, a bare pattern. -/
def execZerogetR (r : Frame) (s : State) : Host.Outcome State Fault Refusal :=
  respondParsed r { shift := some (frameRead16 r rspShiftPos) } s

/-- ACK.R (R168): nothing but the checksum is tested, nothing is read. -/
def execAckR (r : Frame) (s : State) : Host.Outcome State Fault Refusal :=
  respondParsed r {} s

end Sys2Proof.Machine
end

