-- ==== Sys2Proof/Machine/StateCodec.lean ====
section
/-! DEFINITION. StateCodec: DEC1, DEC2, DECW, ENC1, UPD1 (40_state_codec.md). They read the configuration and their
operands and write only the response. -/

namespace Sys2Proof.Machine

/-- `decode_table` from position `k` on: each field in table order, the first value with no member is an error (R102,
R239). -/
def decodeTableFrom (tab : Tab) (raw : Byte) : Nat → Table → Result (List FieldValue)
  | _, [] => .ok []
  | k, fs :: rest =>
    match memberOf fs.domain (extractField raw fs) with
    | none => .error (.domain tab k fs.name (extractField raw fs))
    | some _ =>
      match decodeTableFrom tab raw (k + 1) rest with
      | .error e => .error e
      | .ok out => .ok (⟨tab, k, extractField raw fs⟩ :: out)

/-- `decode_table(T, tab, raw)` (R102). -/
def decodeTable (t : Table) (tab : Tab) (raw : Byte) : Result (List FieldValue) := decodeTableFrom tab raw 0 t

/-- The first element, from position `k` on, that does not refer to `(1, k)`: wrong order, a repeated field, a field of
`T2` (R106, R110). -/
def firstMisplaced : Nat → List FieldValue → Option UnitError
  | _, [] => none
  | k, v :: rest =>
    if v.tab = .first ∧ v.idx = k then firstMisplaced (k + 1) rest
    else some (.shapeIdentity k (some (v.tab, v.idx)))

/-- The first element, from position `k` on, whose value has no member in its field's domain (R106, D15). -/
def firstForeign : Nat → Table → List FieldValue → Option UnitError
  | k, fs :: t, v :: rest =>
    match memberOf fs.domain v.val with
    | none => some (.domain .first k fs.name v.val)
    | some _ => firstForeign (k + 1) t rest
  | _, [], _ => none
  | _, _ :: _, [] => none

/-- Every value shifted into place and ORed into an accumulator that starts at 0 (R106, D11). -/
def packFrom (acc : Byte) : Table → List FieldValue → Byte
  | fs :: t, v :: rest => packFrom (acc ||| insertField fs v.val) t rest
  | [], _ => acc
  | _ :: _, [] => acc

/-- The byte a field sequence packs to (R106). -/
def pack (t : Table) (seq : List FieldValue) : Byte := packFrom 0x00 t seq

/-- DEC1 over a table (R102). -/
def decodeFirst (cfg : UnitConfig) (raw1 : StatusValue) : Result (List FieldValue) :=
  decodeTable cfg.t1 .first raw1.reduce

/-- DEC2 over a table (R103). -/
def decodeSecond (cfg : UnitConfig) (raw2 : StatusValue) : Result (List FieldValue) :=
  decodeTable cfg.t2 .second raw2.reduce

/-- DECW: the `T1` part, then the `T2` part; a failure of `T1` is reported first (R104, D9). -/
def decodeWord (cfg : UnitConfig) (raw1 raw2 : StatusValue) : Result (List FieldValue) :=
  match decodeFirst cfg raw1 with
  | .error e => .error e
  | .ok out1 =>
    match decodeSecond cfg raw2 with
    | .error e => .error e
    | .ok out2 => .ok (out1 ++ out2)

/-- ENC1: length, then identity at every position, then every value, then the packing (R106, R239). -/
def encodeFirst (cfg : UnitConfig) (seq : List FieldValue) : Result Byte :=
  if seq.length ≠ cfg.t1.length then .error (.shapeLength cfg.t1.length seq.length)
  else
    match firstMisplaced 0 seq with
    | some e => .error e
    | none =>
      match firstForeign 0 cfg.t1 seq with
      | some e => .error e
      | none => .ok (pack cfg.t1 seq)

/-- UPD1: `idx` in range, `val` in the field's domain, decode, replace one element, pack; `byte` comes back also when
no write is needed (R107, D16, R239). -/
def updateFirst (cfg : UnitConfig) (raw1 : StatusValue) (idx : Nat) (val : Byte) : Result (Byte × Bool) :=
  match cfg.t1[idx]? with
  | none => .error (.shapeIdentity idx none)
  | some fs =>
    match memberOf fs.domain val with
    | none => .error (.domain .first idx fs.name val)
    | some _ =>
      match decodeFirst cfg raw1 with
      | .error e => .error e
      | .ok cur => .ok (pack cfg.t1 (cur.set idx ⟨.first, idx, val⟩), writeNeeded cur idx val)

/-! ### The instructions -/

/-- DEC1 (R102). -/
def execDec1 (raw1 : StatusValue) (s : State) : Host.Outcome State Fault Refusal :=
  s.respond (decodeFirst s.config raw1) fun fs => { fields := some fs }

/-- DEC2 (R103). -/
def execDec2 (raw2 : StatusValue) (s : State) : Host.Outcome State Fault Refusal :=
  s.respond (decodeSecond s.config raw2) fun fs => { fields := some fs }

/-- DECW (R104). -/
def execDecw (raw1 raw2 : StatusValue) (s : State) : Host.Outcome State Fault Refusal :=
  s.respond (decodeWord s.config raw1 raw2) fun fs => { fields := some fs }

/-- ENC1 (R106). -/
def execEnc1 (seq : List FieldValue) (s : State) : Host.Outcome State Fault Refusal :=
  s.respond (encodeFirst s.config seq) fun b => { byte := some b }

/-- UPD1 (R107). -/
def execUpd1 (raw1 : StatusValue) (idx : Nat) (val : Byte) (s : State) : Host.Outcome State Fault Refusal :=
  s.respond (updateFirst s.config raw1 idx val) fun bw => { byte := some bw.1, writeNeeded := some bw.2 }

end Sys2Proof.Machine
end

