-- ==== Sys2Proof/Machine/Dispatch.lean ====
section
/-! DEFINITION. exec: one arm per instruction, each one direct call of its meaning. -/

namespace Sys2Proof.Machine

def exec (i : Instr) (s : State) : Host.Outcome State Fault Refusal :=
  match i with
  | .dec1 raw1 => Sys2Proof.Machine.execDec1 raw1 s
  | .dec2 raw2 => Sys2Proof.Machine.execDec2 raw2 s
  | .decw raw1 raw2 => Sys2Proof.Machine.execDecw raw1 raw2 s
  | .enc1 seq => Sys2Proof.Machine.execEnc1 seq s
  | .upd1 raw1 idx val => Sys2Proof.Machine.execUpd1 raw1 idx val s
  | .csum p => Sys2Proof.Machine.execCsum p s
  | .build cmd args addr => Sys2Proof.Machine.execBuild cmd args addr s
  | .valid f => Sys2Proof.Machine.execValid f s
  | .getstate addr => Sys2Proof.Machine.execGetstate addr s
  | .addrdef reqAddr => Sys2Proof.Machine.execAddrdef reqAddr s
  | .rdflow addr => Sys2Proof.Machine.execRdflow addr s
  | .baud rate addr => Sys2Proof.Machine.execBaud rate addr s
  | .regime typemode measuringmode addr => Sys2Proof.Machine.execRegime typemode measuringmode addr s
  | .readdr newAddress addr => Sys2Proof.Machine.execReaddr newAddress addr s
  | .recov mode addr => Sys2Proof.Machine.execRecov mode addr s
  | .plug mode addr => Sys2Proof.Machine.execPlug mode addr s
  | .zeroset shift addr => Sys2Proof.Machine.execZeroset shift addr s
  | .zeroget addr => Sys2Proof.Machine.execZeroget addr s
  | .setflow flowRaw addr => Sys2Proof.Machine.execSetflow flowRaw addr s
  | .getstateR r => Sys2Proof.Machine.execGetstateR r s
  | .addrdefR r => Sys2Proof.Machine.execAddrdefR r s
  | .rdflowR r => Sys2Proof.Machine.execRdflowR r s
  | .zerogetR r => Sys2Proof.Machine.execZerogetR r s
  | .ackR r => Sys2Proof.Machine.execAckR r s

end Sys2Proof.Machine
end

