-- ==== Sys2Proof/Machine/Serve.lean ====
section
/-! DEFINITION. The unit serving one request: the decoder reads it, exec runs the instruction; a reserved selector is answered
with IllegalOp (R72, R237, R239). -/

namespace Sys2Proof.Machine

/-- One operation of the unit (R7). -/
def serve (q : Request) (s : State) : Host.Outcome State Fault Refusal :=
  match decodeRequest q with
  | .instr i => exec i s
  | .illegalOp op => .next (s.raise (.illegalOp op))
  | .rejected e => .refused (.noRequestLayout e)

end Sys2Proof.Machine
end

