-- ==== Sys2Proof/Machine/Converter.lean ====
section
/-! DEFINITION. RegisterConverter, host reference (R190 to R193), in exact rational arithmetic (I6; log entry 11). -/

namespace Sys2Proof.Machine

/-- `n / 10000 * max_flow` for a raw fixed-point number already read signed; a zero `max_flow` fails rather than divides
(R190, R192). -/
def engineering (n : Int) (maxFlow : Rat) : Except HostError Rat :=
  if maxFlow = 0 then .error (.validation 0) else .ok ((n : Rat) / 10000 * maxFlow)

/-- `to_engineering(raw, max_flow)` (R190). -/
def toEngineering (raw : Half) (maxFlow : Rat) : Except HostError Rat := engineering (s16 raw) maxFlow

/-- `round`: to the nearest integer; which way an exact half goes is OPEN (R191, I5). -/
def roundNearest (q : Rat) : Int :=
  let n := q.floor
  if q - n < 1 / 2 then n
  else if 1 / 2 < q - n then n + 1
  else if Config.roundHalfUp n then n + 1
  else n

/-- `from_engineering(flow, max_flow)`: `round(flow / max_flow * 10000)` as a two's-complement register (R191). Outside
-32768 to 32767 the spec gives no value: `Config.flowOutOfRange` does, or fails (I7). -/
def fromEngineering (flow maxFlow : Rat) : Except HostError Half :=
  if maxFlow = 0 then .error (.validation 0)
  else
    let n := roundNearest (flow / maxFlow * 10000)
    if -32768 ≤ n ∧ n ≤ 32767 then .ok (BitVec.ofInt 16 n)
    else
      match Config.flowOutOfRange n with
      | none => .error (.validation flow)
      | some v => .ok v

end Sys2Proof.Machine
end

