-- ==== Sys2Proof/Machine/Session.lean ====
section
/-! DEFINITION. The host reference: DeviceSession as a machine of small steps (R196, R200 to R215). Each step asks the unit
for one operation, makes one transport call, or finishes. The unit is asked through the request record alone; the device
is met through the transport's answers alone (log entries 10 and 13). -/

namespace Sys2Proof.Machine

/-! ### Moves -/

/-- The host puts a request to the unit and waits in `ph`; the last response is taken (R36). -/
def State.ask (s : State) (q : Request) (ph : Phase) : State :=
  { s with request := some q, response := none, host := { s.host with phase := ph } }

/-- The host waits in `ph`, the last response taken. -/
def State.await (s : State) (ph : Phase) : State :=
  { s with response := none, host := { s.host with phase := ph } }

/-- The session operation ends. On a failure nothing else of the session has changed (R215). -/
def State.finish (s : State) (r : CallResult) : State :=
  { s with response := none, host := { s.host with phase := .idle, result := some r } }

/-- The next call is taken from the caller's list. -/
def State.taken (s : State) (calls : List Call) : State := { s with host := { s.host with calls := calls } }

/-- One call of the transport was made, and answered by the head of the inbox (R195). -/
def State.called (s : State) (inbox : List TransportReply) (c : TransportCall) : State :=
  { s with host := { s.host with inbox := inbox, log := s.host.log ++ [c] } }

/-- One transport call: without an answer the host blocks (R195, R196); a failure ends the operation with TransportError,
neither read nor retried (R195, R271). -/
def State.transport (s : State) (c : TransportCall) (k : TransportReply → State → State) : State :=
  match s.host.inbox with
  | [] => s
  | t :: rest =>
    match t.error with
    | some d => (s.called rest c).finish (.failed (.transport d))
    | none => k t (s.called rest c)

/-! ### Checks before any frame (R203, R213, R192, R230) -/

/-- NotIdentifiedError: every operation but `identify` needs the address (R203; log entry 12). -/
def notIdentified (h : HostState) (c : Call) : Option HostError :=
  match h.sessionState, c with
  | .identified, _ => none
  | .unidentified, .identify => none
  | .unidentified, c => some (.notIdentified c)

/-- ValidationError: an unsupported rate, a zero `max_flow` where a conversion is needed, a flow that does not convert
(R164, R192, R213, R235). -/
def badArgument (p : HostParams) : Call → Option HostError
  | .setBaudrate rate =>
    match ratecode rate with
    | none => some (.unit (.validation rate))
    | some _ => none
  | .readFlow => if p.maxFlow = 0 then some (.validation 0) else none
  | .writeFlow flow =>
    if flow = 0 ∨ p.maxFlow < 0 then none
    else
      match fromEngineering flow p.maxFlow with
      | .error e => some e
      | .ok _ => none
  | .identify | .getState | .getWritableState | .setRegime _ _ | .setZero _ | .getZero | .redefineAddress _
  | .setRecoveryMode _ | .setPlugMode _ => none

/-- The error a call is refused with before any I/O; when both apply, HOST_ERR_ORDER says which (D33, I9). -/
def callError (h : HostState) (c : Call) : Option HostError :=
  match notIdentified h c, badArgument h.params c with
  | some e, none => some e
  | none, some e => some e
  | none, none => none
  | some e1, some e2 => some (if h.params.validationFirst then e2 else e1)

/-- Does the call convert a flow? -/
def needsConversion : Call → Bool
  | .readFlow => true
  | .writeFlow flow => flow != 0
  | .identify | .getState | .getWritableState | .setRegime _ _ | .setZero _ | .getZero | .redefineAddress _
  | .setRecoveryMode _ | .setPlugMode _ | .setBaudrate _ => false

/-! ### The requests of variant a -/

/-- The member value `writeFlow` brings the valve field to (R209, R273). -/
def valveTarget (p : HostParams) (flow : Rat) : Byte := if flow = 0 then p.valveClosed else p.valveRegulation

/-- The write half in variant a (R214, D28; log entry 15). -/
def writeBackRequest (p : HostParams) (flow : Rat) : ReqLayout × ReqArgs :=
  match p.writeBack with
  | .plug => (.plug, { mode := valveTarget p flow })
  | .given closed regulation => if flow = 0 then closed else regulation

/-- The layout and arguments of an exchange, the device address still to be put in (R204 to R214). -/
def legRequest (p : HostParams) (c : Call) (leg : Leg) : ReqLayout × ReqArgs :=
  match c with
  | .identify => (.addrdef, {})
  | .getState => (.getstate, {})
  | .getWritableState => (.getstate, {})
  | .setRegime mode measuringMode => (.regime, { typemode := mode, measuringmode := measuringMode })
  | .readFlow => (.rdflow, {})
  | .setZero shift => (.zeroset, { shift := shift })
  | .getZero => (.zeroget, {})
  | .redefineAddress newAddress => (.readdr, { newAddress := newAddress })
  | .setRecoveryMode mode => (.recov, { mode := mode })
  | .setPlugMode mode => (.plug, { mode := mode })
  | .setBaudrate rate => (.baud, { rate := rate })
  | .writeFlow flow =>
    match leg with
    | .only => (.getstate, {})
    | .stateRead => (.getstate, {})
    | .writeBack => writeBackRequest p flow
    | .setpoint raw => (.setflow, { flowRaw := raw })

/-- Byte 7 of the request: the device's address, or for the address-define exchange `ADDRDEF_REQ_ADDR` (R154, R204). -/
def addressByte (s : State) : Call → Option Byte
  | .identify => some s.config.addrdefReqAddr
  | .getState | .getWritableState | .setRegime _ _ | .readFlow | .writeFlow _ | .setZero _ | .getZero
  | .redefineAddress _ | .setRecoveryMode _ | .setPlugMode _ | .setBaudrate _ => s.host.address

/-- Begin an exchange: the unit is asked for the request frame (R196). Without an address none is built (R203). -/
def beginExchange (c : Call) (leg : Leg) (s : State) : State :=
  let q := legRequest s.host.params c leg
  match addressByte s c with
  | none => s.finish (.failed (.notIdentified c))
  | some a => s.ask (.reqLayout q.1 { q.2 with addr := a }) (.building { call := c, leg := leg, sent := q.1 })

/-! ### The write half and the setpoint of writeFlow (R209, R214) -/

/-- After the valve is as wanted: a zero flow is done, no setpoint is written (R209, R273); else the converted setpoint
goes out as a SETFLOW frame or to the setpoint register. -/
def afterValve (flow : Rat) (s : State) : State :=
  if flow = 0 then s.finish (.returned .done)
  else
    match fromEngineering flow s.host.params.maxFlow with
    | .error e => s.finish (.failed e)
    | .ok raw =>
      match s.host.params.variant with
      | .a => beginExchange (.writeFlow flow) (.setpoint raw) s
      | .b => s.await (.regWriting (.writeFlow flow) (.setpoint raw) (Register.address .setpoint) raw)

/-- The write half of the read-modify-write: nothing is written when nothing differs (R209, R268); in variant b the byte
goes to flags-1 zero-extended (R214). -/
def writeHalf (flow : Rat) (byte : Byte) (needed : Bool) (s : State) : State :=
  if needed then
    match s.host.params.variant with
    | .a => beginExchange (.writeFlow flow) .writeBack s
    | .b => s.await (.regWriting (.writeFlow flow) .writeBack (Register.address .flags1) (zext16 byte))
  else afterValve flow s

/-- The unit is asked for the checked read-modify-write of the valve field (R209). -/
def askUpdate (flow : Rat) (raw1 : StatusValue) (s : State) : State :=
  let p := s.host.params
  s.ask (.unitOp 4 { raw1 := raw1, idx := p.iPlug, val := valveTarget p flow }) (.coding (.writeFlow flow))

/-! ### Results -/

/-- A measured flow, and in variant a the setpoint, in engineering units (R208). -/
def flowResult (p : HostParams) (measured : Int) (setpoint : Option Int) : CallResult :=
  match engineering measured p.maxFlow with
  | .error e => .failed e
  | .ok f =>
    match setpoint with
    | none => .returned (.flow f none)
    | some n =>
      match engineering n p.maxFlow with
      | .error e => .failed e
      | .ok g => .returned (.flow f (some g))

/-- The zero shift, read by ZERO_SHIFT_SIGNED (D31). -/
def shiftValue (p : HostParams) (v : Half) : Int := if p.zeroShiftSigned then s16 v else v.toNat

/-- `identify` captures the serial number and the address, and the session is Identified (R201, R204). -/
def capture (address : Byte) (serial : Half) (s : State) : State :=
  { s with host := { s.host with address := some address, serial := some serial } }

/-- Whether a redefined address is cached is OPEN (D34, N18, R272). -/
def recache (newAddress : Byte) (s : State) : State :=
  if s.host.params.readdressUpdates then { s with host := { s.host with address := some newAddress } } else s

/-! ### One phase after another -/

/-- The host's steps end in a next state, in the protocol fault, or refused. -/
abbrev HostOutcome := Host.Outcome State Fault Refusal

/-- The response to a request layout: the frame is to be written, or the call fails with the unit's error. -/
def onBuilt (x : Exchange) (r : Response) (s : State) : HostOutcome :=
  match r.info, r.frame with
  | some e, _ => .next (s.finish (.failed (.unit e)))
  | none, some f => .next (s.await (.writing x f))
  | none, none => .fault .hostProtocol

/-- The fields of a validated response, by the operation that asked for it (R204 to R214). -/
def onParsed (x : Exchange) (r : Response) (s : State) : HostOutcome :=
  match r.info with
  | some e => .next (s.finish (.failed (.unit e)))
  | none =>
    match x.call with
    | .identify =>
      match r.address, r.serial with
      | some a, some n => .next ((capture a n s).finish (.returned (.address a)))
      | _, _ => .fault .hostProtocol
    | .getState =>
      match r.raw1, r.raw2 with
      | some v1, some v2 => .next (s.ask (.unitOp 2 { raw1 := .byte v1, raw2 := .byte v2 }) (.coding .getState))
      | _, _ => .fault .hostProtocol
    | .getWritableState =>
      match r.raw1 with
      | some v1 => .next (s.ask (.unitOp 0 { raw1 := .byte v1 }) (.coding .getWritableState))
      | none => .fault .hostProtocol
    | .readFlow =>
      match r.flow, r.setpoint with
      | some f, some g => .next (s.finish (flowResult s.host.params f (some g)))
      | _, _ => .fault .hostProtocol
    | .getZero =>
      match r.shift with
      | some v => .next (s.finish (.returned (.shift (shiftValue s.host.params v))))
      | none => .fault .hostProtocol
    | .redefineAddress newAddress => .next ((recache newAddress s).finish (.returned .done))
    | .setRegime _ _ => .next (s.finish (.returned .done))
    | .setZero _ => .next (s.finish (.returned .done))
    | .setRecoveryMode _ => .next (s.finish (.returned .done))
    | .setPlugMode _ => .next (s.finish (.returned .done))
    | .setBaudrate _ => .next (s.finish (.returned .done))
    | .writeFlow flow =>
      match x.leg with
      | .only | .stateRead =>
        match r.raw1 with
        | some v1 => .next (askUpdate flow (.byte v1) s)
        | none => .fault .hostProtocol
      | .writeBack => .next (afterValve flow s)
      | .setpoint _ => .next (s.finish (.returned .done))

/-- The response to a codec operation (R205, R206, R209). -/
def onCoded (c : Call) (r : Response) (s : State) : HostOutcome :=
  match r.info with
  | some e => .next (s.finish (.failed (.unit e)))
  | none =>
    match c with
    | .getState | .getWritableState =>
      match r.fields with
      | some fs => .next (s.finish (.returned (.fields fs)))
      | none => .fault .hostProtocol
    | .writeFlow flow =>
      match r.byte, r.writeNeeded with
      | some b, some w => .next (writeHalf flow b w s)
      | _, _ => .fault .hostProtocol
    | .identify | .setRegime _ _ | .readFlow | .setZero _ | .getZero | .redefineAddress _ | .setRecoveryMode _
    | .setPlugMode _ | .setBaudrate _ => .fault .hostProtocol

/-- The registers of a variant b read are all there (R205 to R209). -/
def onRegisters (c : Call) (regs : List Half) (s : State) : HostOutcome :=
  match c, regs with
  | .getState, [v1, v2] => .next (s.ask (.unitOp 2 { raw1 := .reg v1, raw2 := .reg v2 }) (.coding .getState))
  | .getWritableState, [v1] => .next (s.ask (.unitOp 0 { raw1 := .reg v1 }) (.coding .getWritableState))
  | .writeFlow flow, [v1] => .next (askUpdate flow (.reg v1) s)
  | .readFlow, [v] => .next (s.finish (flowResult s.host.params (s16 v) none))
  | _, _ => .fault .hostProtocol

/-- A wait for the unit's response (only a state that no run reaches has none). -/
def withResponse (s : State) (k : Response → HostOutcome) : HostOutcome :=
  match s.response with
  | none => .fault .hostProtocol
  | some r => k r

/-- A register read of variant b: one transport call; when no further read is to be made the call goes on (R197). -/
def readRegs (c : Call) (address : Half) (count : Nat) (rest : List (Half × Nat)) (got : List Half) (s : State) :
    HostOutcome :=
  match s.host.inbox with
  | [] => .next s
  | t :: inbox =>
    let s' := s.called inbox (.readRegisters address count)
    match t.error with
    | some d => .next (s'.finish (.failed (.transport d)))
    | none =>
      let regs := got ++ [t.reg0, t.reg1].take count
      match rest with
      | (a, n) :: more => .next (s'.await (.regReading c a n more regs))
      | [] => onRegisters c regs s'

/-- After a register write: the setpoint follows the write half, and ends the operation (R209). -/
def afterRegWrite (c : Call) (leg : Leg) (s : State) : State :=
  match c, leg with
  | .writeFlow flow, .writeBack => afterValve flow s
  | _, _ => s.finish (.returned .done)

/-- The register reads a call begins with in variant b (R58, R197, R205 to R209); none where the spec gives the call no
variant b form. DESIGN CHOICE, log entry 4: the counts, which DOC gives for no read (R197, N19); the flow register and the
configuration register alone are read with count 1. -/
def registerReads (p : HostParams) : Call → List (Half × Nat)
  | .getState =>
    if p.splitFlagReads then [(Register.address .flags1, 1), (Register.address .flags2, 1)]
    else [(Register.address .flags1, 2)]
  | .getWritableState => [(Register.address .flags1, 1)]
  | .writeFlow _ => [(Register.address .flags1, 1)]
  | .readFlow => [(Register.address .flow, 1)]
  | .identify | .setRegime _ _ | .setZero _ | .getZero | .redefineAddress _ | .setRecoveryMode _ | .setPlugMode _
  | .setBaudrate _ => []

/-- The first exchange of a call (R196, R209). -/
def firstLeg : Call → Leg
  | .writeFlow _ => .stateRead
  | .identify | .getState | .getWritableState | .setRegime _ _ | .readFlow | .setZero _ | .getZero
  | .redefineAddress _ | .setRecoveryMode _ | .setPlugMode _ | .setBaudrate _ => .only

/-- The I/O of a call begins. -/
def launch (c : Call) (s : State) : HostOutcome :=
  match s.host.params.variant with
  | .a => .next (beginExchange c (firstLeg c) s)
  | .b =>
    match registerReads s.host.params c with
    | [] => .refused (.noVariantBForm c)
    | (a, n) :: more => .next (s.await (.regReading c a n more []))

/-- A call of the session: `identify` with a known address returns it and sends nothing (R204); the checks come before
any I/O (R230); a negative `max_flow` is refused (I8). -/
def startCall (c : Call) (s : State) : HostOutcome :=
  match c, s.host.address with
  | .identify, some a => .next (s.finish (.returned (.address a)))
  | c, _ =>
    match callError s.host c with
    | some e => .next (s.finish (.failed e))
    | none =>
      if needsConversion c = true ∧ s.host.params.maxFlow < 0 then .refused .negativeMaxFlow else launch c s

/-- One step of the host. With no call to make it does nothing (R41: the unit is idle). -/
def hostStep (s : State) : HostOutcome :=
  match s.host.phase with
  | .idle =>
    match s.host.calls with
    | [] => .next s
    | c :: rest => startCall c (s.taken rest)
  | .building x => withResponse s fun r => onBuilt x r s
  | .writing x f => .next (s.transport (.write f) fun _ s' => s'.await (.reading x))
  | .reading x => .next (s.transport (.read 10) fun t s' => s'.ask (.rspLayout x.sent t.frame) (.parsing x))
  | .parsing x => withResponse s fun r => onParsed x r s
  | .coding c => withResponse s fun r => onCoded c r s
  | .regReading c address count rest got => readRegs c address count rest got s
  | .regWriting c leg address value =>
    .next (s.transport (.writeRegister address value) fun _ s' => afterRegWrite c leg s')

end Sys2Proof.Machine
end

