-- ==== Sys2Proof/Machine/Step.lean ====
section
/-! DEFINITION. The step: a request present is served by the unit in one atomic operation (R7); otherwise the host moves. -/

namespace Sys2Proof.Machine

def step (s : State) : Host.Outcome State Fault Refusal :=
  match s.request with
  | some q => serve q s
  | none => hostStep s

/-- `s` with the request a word of the opcode table stands for, as the host would present it next (log entry 9). -/
def State.withFetchWord (s : State) (nbits w : Nat) : State :=
  { s with request := some (requestOfWord nbits w) }

end Sys2Proof.Machine
end

