-- ==== Sys2Proof/Safety.lean ====
section
/-! DEFINITION. The terms claims are stated in: what a response may hold, what a decode of a well-formed table gives, when the
host and the unit are in step with each other, and what a safe run is. -/

namespace Sys2Proof.Machine

/-! ### Decoding, said without the machine's recursion -/

/-- The table a FieldSpec reference names (R24). -/
def UnitConfig.table (cfg : UnitConfig) : Tab → Table
  | .first => cfg.t1
  | .second => cfg.t2

/-- Every field of the table extracts to a member of its domain (R31). -/
def Decodes (t : Table) (raw : Byte) : Prop :=
  ∀ fs ∈ t, (memberOf fs.domain (extractField raw fs)).isSome = true

/-- The field values of a byte, one per FieldSpec in table order (R34, R102). -/
def fieldsOf (t : Table) (tab : Tab) (raw : Byte) : List FieldValue :=
  t.mapIdx fun k fs => ⟨tab, k, extractField raw fs⟩

/-- Position `k` is the lowest whose extracted value has no member; `fs` is the FieldSpec there (R102, R239). -/
def FirstBad (t : Table) (raw : Byte) (k : Nat) (fs : FieldSpec) : Prop :=
  t[k]? = some fs ∧ memberOf fs.domain (extractField raw fs) = none ∧ Decodes (t.take k) raw

/-- The byte a list of member values packs to: every value shifted into place, all ORed together (R106). -/
def packedByte (t : Table) (vals : List Byte) : Byte :=
  (List.zipWith insertField t vals).foldl (· ||| ·) 0

/-- The sequence matches the first-byte table: its length, and `(1, k)` at every position `k` (R34). -/
def MatchesFirst (cfg : UnitConfig) (seq : List FieldValue) : Prop :=
  seq.length = cfg.t1.length ∧ ∀ (k : Nat) (v : FieldValue), seq[k]? = some v → v.tab = .first ∧ v.idx = k

/-- The member value lies in the domain of the field it refers to (R33). -/
def InDomain (cfg : UnitConfig) (v : FieldValue) : Prop :=
  ∃ fs, (UnitConfig.table cfg v.tab)[v.idx]? = some fs ∧ (memberOf fs.domain v.val).isSome = true

/-- The shift does not exceed the number of zero bits below the mask: masking then shifting down and up again loses
nothing (the 'usual table' of R109). -/
def Aligned (fs : FieldSpec) : Prop := ∀ b : Byte, ((b &&& fs.mask) >>> fs.shift) <<< fs.shift = b &&& fs.mask

/-! ### Responses -/

/-- Only `status`, `info` and `ok` are there. -/
def Response.Bare (r : Response) : Prop := r = { status := r.status, info := r.info, ok := r.ok }

/-- R38, R240: an error is reported with its own status and no result (but `ok` = 0, which VALID reports beside
ChecksumError, R133); a response without an error has status OK and no `ok` = 0. -/
def Response.WellFormed (r : Response) : Prop :=
  match r.info with
  | some e => r.status = e.status ∧ r.Bare ∧ r.ok ≠ some true ∧ (r.ok = some false → r.status = .checksumError)
  | none => r.status = .ok ∧ r.ok ≠ some false

/-- What the result slots may hold under a configuration: fields inside their domains (R33), an encoded byte with every
reserved bit 0 (R31), a sum of at most 2040 (R131), a frame that passes VALID (R135), signed 16-bit flows (R158). -/
structure Response.Sound (cfg : UnitConfig) (r : Response) : Prop where
  wellFormed : r.WellFormed
  fields : ∀ fs, r.fields = some fs → ∀ v ∈ fs, InDomain cfg v
  byte : ∀ b, r.byte = some b → b &&& gap cfg.t1 = 0
  sum : ∀ v, r.sum = some v → v.toNat ≤ 2040
  frame : ∀ f, r.frame = some f → checksumOk f = true
  flow : ∀ n, r.flow = some n → -32768 ≤ n ∧ n ≤ 32767
  setpoint : ∀ n, r.setpoint = some n → -32768 ≤ n ∧ n ≤ 32767

/-- The frame waiting to be written, if there is one. -/
def Phase.frame : Phase → Option Frame
  | .writing _ f => some f
  | .idle | .building _ | .reading _ | .parsing _ | .coding _ => none
  | .regReading _ _ _ _ _ | .regWriting _ _ _ _ => none

/-- Every response is sound, and every frame that is or was put on the line carries its checksum (R135). -/
structure State.Sound (s : State) : Prop where
  response : ∀ r, s.response = some r → r.Sound s.config
  pending : ∀ f, s.host.phase.frame = some f → checksumOk f = true
  sent : ∀ f, TransportCall.write f ∈ s.host.log → checksumOk f = true

/-! ### The host and the unit in step -/

/-- The request layout an exchange of a call must have sent for the call to find its fields in the response (R151,
R204 to R210). -/
def Exchange.Coherent (x : Exchange) : Prop :=
  match x.call, x.leg with
  | .identify, _ => x.sent = .addrdef
  | .getState, _ => x.sent = .getstate
  | .getWritableState, _ => x.sent = .getstate
  | .readFlow, _ => x.sent = .rdflow
  | .getZero, _ => x.sent = .zeroget
  | .writeFlow _, .only => x.sent = .getstate
  | .writeFlow _, .stateRead => x.sent = .getstate
  | .writeFlow _, .writeBack => True
  | .writeFlow _, .setpoint _ => True
  | .setRegime _ _, _ | .setZero _, _ | .redefineAddress _, _ | .setRecoveryMode _, _ | .setPlugMode _, _
  | .setBaudrate _, _ => True

/-- The slots a response layout fills when the frame is valid. -/
def Response.Parsed (l : RspLayout) (r : Response) : Prop :=
  match l with
  | .getstateR => r.raw1.isSome = true ∧ r.raw2.isSome = true
  | .addrdefR => r.address.isSome = true ∧ r.serial.isSome = true
  | .rdflowR => r.flow.isSome = true ∧ r.setpoint.isSome = true
  | .zerogetR => r.shift.isSome = true
  | .ackR => True

/-- The codec operation a call waits for, with its selector. -/
def Call.codecOp : Call → Option (BitVec 4)
  | .getState => some 2
  | .getWritableState => some 0
  | .writeFlow _ => some 4
  | .identify | .setRegime _ _ | .readFlow | .setZero _ | .getZero | .redefineAddress _ | .setRecoveryMode _
  | .setPlugMode _ | .setBaudrate _ => none

/-- The slots a codec operation fills when it succeeds. -/
def Response.Coded (c : Call) (r : Response) : Prop :=
  match c with
  | .writeFlow _ => r.byte.isSome = true ∧ r.writeNeeded.isSome = true
  | _ => r.fields.isSome = true

/-- How many registers a call needs in variant b (0: it has no variant b form). -/
def Call.registers : Call → Nat
  | .getState => 2
  | .getWritableState | .writeFlow _ | .readFlow => 1
  | .identify | .setRegime _ _ | .setZero _ | .getZero | .redefineAddress _ | .setRecoveryMode _ | .setPlugMode _
  | .setBaudrate _ => 0

/-- Registers still to come from reads of the given counts; one answer carries at most two. -/
def registersToCome (counts : List Nat) : Nat := (counts.map fun n => min n 2).sum

/-- What the host waits for in its phase is on its way or has arrived. A request in flight while the host waits for
nothing, or for the transport, is one presented from outside the session. -/
def State.InStep (s : State) : Prop :=
  match s.host.phase with
  | .idle => True
  | .writing x _ | .reading x => x.Coherent
  | .building x =>
    x.Coherent ∧
      ((∃ a, s.request = some (.reqLayout x.sent a)) ∨
        (s.request = none ∧ ∃ r, s.response = some r ∧ (r.info.isSome = true ∨ r.frame.isSome = true)))
  | .parsing x =>
    x.Coherent ∧
      ((∃ f, s.request = some (.rspLayout x.sent f)) ∨
        (s.request = none ∧ ∃ r, s.response = some r ∧ (r.info.isSome = true ∨ r.Parsed x.sent.response)))
  | .coding c =>
    (∃ op, c.codecOp = some op ∧
      ((∃ y, s.request = some (.unitOp op y)) ∨
        (s.request = none ∧ ∃ r, s.response = some r ∧ (r.info.isSome = true ∨ r.Coded c))))
  | .regReading c _ count rest got =>
    0 < c.registers ∧ got.length + registersToCome (count :: rest.map Prod.snd) = c.registers
  | .regWriting _ _ _ _ => True

/-! ### Safe runs -/

/-- A step that is neither a fault nor a refusal. -/
def Steps (s : State) : Prop := ∃ t, step s = .next t

/-- No run of `n` steps from `s` ends in a fault (it may be refused by name). -/
def FaultFree (s : State) (n : Nat) : Prop := ∀ e : Fault, Host.Core.run Sys2Proof.core n s ≠ .fault e

end Sys2Proof.Machine
end

