-- ==== Sys2Proof/Certificates/Slice0/Obligations.lean ====
section
/-! DEFINITION. The statements for the provers, from the numbered rules of spec/. A clause that rests on a decision of the spec
(a `D<n>` of 92_eei_decisions.md) or on the model's own choice says so in its docstring. The machine has no memory and no
program counter; a frame here is the equation with the whole next state: `request` gone, `response` there, `config` and `host`
as they were. -/

open Sys2Proof Sys2Proof.Machine

/-! ### StateCodec (40_state_codec.md) -/

/-- R102 (with D12: the lowest failing position is reported; D10 for a register operand): DEC1 returns one FieldValue per
FieldSpec of `T1` in table order, or DomainError; one of the two always applies. -/
def Obligations.Dec1DecodesOrNamesLowestField : Prop :=
  ∀ (raw : StatusValue) (s : State),
    (Decodes s.config.t1 raw.reduce →
      exec (.dec1 raw) s = .next { s with
        request := none
        response := some { fields := some (fieldsOf s.config.t1 .first raw.reduce) } }) ∧
    (∀ k fs, FirstBad s.config.t1 raw.reduce k fs →
      exec (.dec1 raw) s = .next { s with
        request := none
        response := some
          { status := .domainError, info := some (.domain .first k fs.name (extractField raw.reduce fs)) } }) ∧
    (Decodes s.config.t1 raw.reduce ∨ ∃ k fs, FirstBad s.config.t1 raw.reduce k fs)

/-- R103 (with D4, D10, D12): DEC2 is the same over `T2`. -/
def Obligations.Dec2DecodesOrNamesLowestField : Prop :=
  ∀ (raw : StatusValue) (s : State),
    (Decodes s.config.t2 raw.reduce →
      exec (.dec2 raw) s = .next { s with
        request := none
        response := some { fields := some (fieldsOf s.config.t2 .second raw.reduce) } }) ∧
    (∀ k fs, FirstBad s.config.t2 raw.reduce k fs →
      exec (.dec2 raw) s = .next { s with
        request := none
        response := some
          { status := .domainError, info := some (.domain .second k fs.name (extractField raw.reduce fs)) } }) ∧
    (Decodes s.config.t2 raw.reduce ∨ ∃ k fs, FirstBad s.config.t2 raw.reduce k fs)

/-- R104 (with D9: `T1` part first; D12: a failure of `T1` before any of `T2`). -/
def Obligations.DecwConcatenatesFirstThenSecond : Prop :=
  ∀ (raw1 raw2 : StatusValue) (s : State),
    (Decodes s.config.t1 raw1.reduce → Decodes s.config.t2 raw2.reduce →
      exec (.decw raw1 raw2) s = .next { s with
        request := none
        response := some
          { fields := some (fieldsOf s.config.t1 .first raw1.reduce ++ fieldsOf s.config.t2 .second raw2.reduce) } }) ∧
    (∀ k fs, FirstBad s.config.t1 raw1.reduce k fs →
      exec (.decw raw1 raw2) s = .next { s with
        request := none
        response := some
          { status := .domainError, info := some (.domain .first k fs.name (extractField raw1.reduce fs)) } }) ∧
    (∀ k fs, Decodes s.config.t1 raw1.reduce → FirstBad s.config.t2 raw2.reduce k fs →
      exec (.decw raw1 raw2) s = .next { s with
        request := none
        response := some
          { status := .domainError, info := some (.domain .second k fs.name (extractField raw2.reduce fs)) } })

/-- R106, the result (with D11: the accumulator starts at 0; D15: every value must lie in its domain): the member values,
shifted into place, ORed together. -/
def Obligations.Enc1PacksMatchingSequence : Prop :=
  ∀ (seq : List FieldValue) (s : State), MatchesFirst s.config seq → (∀ v ∈ seq, InDomain s.config v) →
    exec (.enc1 seq) s = .next { s with
      request := none
      response := some { byte := some (packedByte s.config.t1 (seq.map FieldValue.val)) } }

/-- R106, R239, the errors in their order (with D15, D23): a wrong length before a wrong identity before a value with no
member; the lowest position of each kind. -/
def Obligations.Enc1RejectsInOrder : Prop :=
  ∀ (seq : List FieldValue) (s : State),
    (seq.length ≠ s.config.t1.length →
      exec (.enc1 seq) s = .next { s with
        request := none
        response := some
          { status := .shapeError, info := some (.shapeLength s.config.t1.length seq.length) } }) ∧
    (∀ (k : Nat) (v : FieldValue), seq.length = s.config.t1.length → seq[k]? = some v →
      ¬ (v.tab = .first ∧ v.idx = k) →
      (∀ (j : Nat) (w : FieldValue), j < k → seq[j]? = some w → w.tab = .first ∧ w.idx = j) →
      exec (.enc1 seq) s = .next { s with
        request := none
        response := some { status := .shapeError, info := some (.shapeIdentity k (some (v.tab, v.idx))) } }) ∧
    (∀ (k : Nat) (v : FieldValue) (fs : FieldSpec), MatchesFirst s.config seq → seq[k]? = some v →
      s.config.t1[k]? = some fs → memberOf fs.domain v.val = none → (∀ w ∈ seq.take k, InDomain s.config w) →
      exec (.enc1 seq) s = .next { s with
        request := none
        response := some { status := .domainError, info := some (.domain .first k fs.name v.val) } })

/-- R110: a field of `T2` is never encoded, at any position of a sequence of the right length. -/
def Obligations.SecondTableFieldIsNeverEncoded : Prop :=
  ∀ (seq : List FieldValue) (s : State), (∃ v ∈ seq, v.tab = .second) →
    ∃ e, exec (.enc1 seq) s = .next { s with
      request := none
      response := some { status := .shapeError, info := some e } }

/-- R107, the result (with D16): the byte with the one field replaced, and `write_needed` = 0 exactly when the requested
member is the one decoded. -/
def Obligations.Upd1ReplacesOneField : Prop :=
  ∀ (raw : StatusValue) (idx : Nat) (val : Byte) (fs : FieldSpec) (s : State),
    s.config.t1[idx]? = some fs → (memberOf fs.domain val).isSome = true → Decodes s.config.t1 raw.reduce →
    exec (.upd1 raw idx val) s = .next { s with
      request := none
      response := some
        { byte := some (packedByte s.config.t1 ((s.config.t1.map (extractField raw.reduce)).set idx val))
          writeNeeded := some (extractField raw.reduce fs != val) } }

/-- R107, R239, the errors in their order (with D16, D23): `idx`, then `val`, then the decode of the current byte. -/
def Obligations.Upd1RejectsInOrder : Prop :=
  ∀ (raw : StatusValue) (idx : Nat) (val : Byte) (s : State),
    (s.config.t1.length ≤ idx →
      exec (.upd1 raw idx val) s = .next { s with
        request := none
        response := some { status := .shapeError, info := some (.shapeIdentity idx none) } }) ∧
    (∀ fs, s.config.t1[idx]? = some fs → memberOf fs.domain val = none →
      exec (.upd1 raw idx val) s = .next { s with
        request := none
        response := some { status := .domainError, info := some (.domain .first idx fs.name val) } }) ∧
    (∀ fs k bad, s.config.t1[idx]? = some fs → (memberOf fs.domain val).isSome = true →
      FirstBad s.config.t1 raw.reduce k bad →
      exec (.upd1 raw idx val) s = .next { s with
        request := none
        response := some
          { status := .domainError, info := some (.domain .first k bad.name (extractField raw.reduce bad)) } })

/-- R107's law (D16): UPD1 is DEC1, a replacement and ENC1 in sequence: ENC1 of the decoded sequence with the one element
replaced answers the same byte. -/
def Obligations.Upd1IsDecodeReplaceEncode : Prop :=
  ∀ (raw : StatusValue) (idx : Nat) (val b : Byte) (w : Bool) (cur : List FieldValue) (s t u : State),
    exec (.dec1 raw) s = .next t → t.response = some { fields := some cur } →
    exec (.upd1 raw idx val) s = .next u → u.response = some { byte := some b, writeNeeded := some w } →
    exec (.enc1 (cur.set idx ⟨.first, idx, val⟩)) s = .next { s with
      request := none
      response := some { byte := some b } }

/-- R108, DOC's round trip: if ENC1 packs a sequence into `b`, DEC1 of `b` gives the sequence back. Holds for every
configuration, since one carries R25 and R26. -/
def Obligations.DecodeOfEncodeIsTheSequence : Prop :=
  ∀ (seq : List FieldValue) (b : Byte) (s t : State),
    exec (.enc1 seq) s = .next t → t.response = some { byte := some b } →
    exec (.dec1 (.byte b)) s = .next { s with request := none, response := some { fields := some seq } }

/-- R109: the other direction gives the field bits of the byte, shifted down and up again; where no shift loses bits, the
byte with its reserved bits cleared. -/
def Obligations.EncodeOfDecodeClearsReservedBits : Prop :=
  ∀ (raw : Byte) (seq : List FieldValue) (s t : State),
    exec (.dec1 (.byte raw)) s = .next t → t.response = some { fields := some seq } →
    exec (.enc1 seq) s = .next { s with
      request := none
      response := some
        { byte := some ((s.config.t1.map fun fs => extractField raw fs <<< fs.shift).foldl (· ||| ·) 0) } } ∧
    ((∀ fs ∈ s.config.t1, Aligned fs) →
      exec (.enc1 seq) s = .next { s with
        request := none
        response := some { byte := some (raw &&& ~~~ gap s.config.t1) } })

/-- R107 (b) and (d), R109, R267: the byte UPD1 answers has every reserved bit 0 and, where no shift loses bits, the bits
of every other field as they were. -/
def Obligations.Upd1KeepsOtherFieldsClearsGap : Prop :=
  ∀ (raw : StatusValue) (idx : Nat) (val b : Byte) (w : Bool) (s t : State),
    exec (.upd1 raw idx val) s = .next t → t.response = some { byte := some b, writeNeeded := some w } →
    b &&& gap s.config.t1 = 0 ∧
    ∀ (k : Nat) (fs : FieldSpec), k ≠ idx → s.config.t1[k]? = some fs → Aligned fs →
      b &&& fs.mask = raw.reduce &&& fs.mask

/-- R79, R31, I4: a decode and an update give the same answer whatever the reserved bits hold. -/
def Obligations.ReservedBitsAreIgnored : Prop :=
  ∀ (raw raw' : Byte) (idx : Nat) (val : Byte) (s : State),
    (raw &&& covered s.config.t1 = raw' &&& covered s.config.t1 →
      exec (.dec1 (.byte raw)) s = exec (.dec1 (.byte raw')) s ∧
      exec (.upd1 (.byte raw) idx val) s = exec (.upd1 (.byte raw') idx val) s) ∧
    (raw &&& covered s.config.t2 = raw' &&& covered s.config.t2 →
      exec (.dec2 (.byte raw)) s = exec (.dec2 (.byte raw')) s)

/-- R32, R112, I14 (the spec's decision D10): a register operand counts through its bits 7 to 0 alone. -/
def Obligations.RegisterUpperByteIsIgnored : Prop :=
  ∀ (hi lo hi' lo' : Byte) (idx : Nat) (val : Byte) (s : State),
    exec (.dec1 (.reg (be16 hi lo))) s = exec (.dec1 (.byte lo)) s ∧
    exec (.dec2 (.reg (be16 hi lo))) s = exec (.dec2 (.byte lo)) s ∧
    exec (.decw (.reg (be16 hi lo)) (.reg (be16 hi' lo'))) s = exec (.decw (.byte lo) (.byte lo')) s ∧
    exec (.upd1 (.reg (be16 hi lo)) idx val) s = exec (.upd1 (.byte lo) idx val) s

/-! ### ChecksumFrame (41_checksum_frame.md) -/

/-- R130: CSUM, selector 5, answers the sum of the eight bytes modulo 65536, and cannot fail. -/
def Obligations.CsumIsSumOfEightBytes : Prop :=
  ∀ (p : Payload) (x : Slots) (s : State),
    decodeRequest (.unitOp 5 x) = .instr (.csum x.p) ∧
    ∃ v : Half,
      v.toNat = (p.cmd.toNat + p.args.a1.toNat + p.args.a2.toNat + p.args.a3.toNat + p.args.a4.toNat
        + p.args.a5.toNat + p.args.a6.toNat + p.addr.toNat) % 65536 ∧
      exec (.csum p) s = .next { s with request := none, response := some { sum := some v } }

/-- R131 (derived in the spec): the modulus never changes a checksum: it is the exact sum of the eight bytes, at most 2040,
its bits 15 to 11 being 0. -/
def Obligations.ChecksumNeverWraps : Prop :=
  ∀ (p : Payload) (s t : State) (v : Half),
    exec (.csum p) s = .next t → t.response = some { sum := some v } →
    v.toNat = p.cmd.toNat + p.args.a1.toNat + p.args.a2.toNat + p.args.a3.toNat + p.args.a4.toNat + p.args.a5.toNat
      + p.args.a6.toNat + p.addr.toNat ∧
    v.toNat ≤ 2040 ∧ v.extractLsb' 11 5 = 0

/-- R132: BUILD, selector 6, answers the ten bytes command, arguments, address, high and low byte of the sum of the first
eight; it cannot fail. -/
def Obligations.BuildLaysOutTenBytes : Prop :=
  ∀ (cmd : Byte) (args : Args) (addr : Byte) (x : Slots) (s : State),
    decodeRequest (.unitOp 6 x) = .instr (.build x.cmd x.args x.addr) ∧
    ∃ f : Frame,
      exec (.build cmd args addr) s = .next { s with request := none, response := some { frame := some f } } ∧
      frameRead f 0 = cmd ∧ frameRead f 1 = args.a1 ∧ frameRead f 2 = args.a2 ∧ frameRead f 3 = args.a3 ∧
      frameRead f 4 = args.a4 ∧ frameRead f 5 = args.a5 ∧ frameRead f 6 = args.a6 ∧ frameRead f 7 = addr ∧
      (frameRead f 8).toNat * 256 + (frameRead f 9).toNat =
        (cmd.toNat + args.a1.toNat + args.a2.toNat + args.a3.toNat + args.a4.toNat + args.a5.toNat + args.a6.toNat
          + addr.toNat) % 65536

/-- R133, R38, R232 (with D17: `ok` reported as 0, detail the two sums; log entry 6): VALID, selector 7, compares the sum
of bytes 0 to 7 with the big-endian number in bytes 8 and 9, and nothing else. -/
def Obligations.ValidComparesSumWithTrailer : Prop :=
  ∀ (f : Frame) (x : Slots) (s : State),
    decodeRequest (.unitOp 7 x) = .instr (.valid x.f) ∧
    ∃ computed received : Half,
      computed.toNat = ((frameRead f 0).toNat + (frameRead f 1).toNat + (frameRead f 2).toNat
        + (frameRead f 3).toNat + (frameRead f 4).toNat + (frameRead f 5).toNat + (frameRead f 6).toNat
        + (frameRead f 7).toNat) % 65536 ∧
      received.toNat = (frameRead f 8).toNat * 256 + (frameRead f 9).toNat ∧
      (computed = received →
        exec (.valid f) s = .next { s with request := none, response := some { ok := some true } }) ∧
      (computed ≠ received →
        exec (.valid f) s = .next { s with
          request := none
          response := some
            { status := .checksumError, info := some (.checksum computed received), ok := some false } })

/-- R135 (a): the frame BUILD answers is valid. -/
def Obligations.BuiltFrameIsValid : Prop :=
  ∀ (cmd : Byte) (args : Args) (addr : Byte) (f : Frame) (s t : State),
    exec (.build cmd args addr) s = .next t → t.response = some { frame := some f } →
    exec (.valid f) s = .next { s with request := none, response := some { ok := some true } }

/-- R135 (b): a valid frame with any one of its 80 bits flipped is rejected with ChecksumError. That `ok` stands as 0 beside
the error is the model's choice, log entry 6. -/
def Obligations.EverySingleBitFlipIsRejected : Prop :=
  ∀ (f : Frame) (a : Fin 10) (j : Fin 8) (s : State),
    exec (.valid f) s = .next { s with request := none, response := some { ok := some true } } →
    ∃ computed received : Half, exec (.valid (frameFlip f a j)) s = .next { s with
      request := none
      response := some
        { status := .checksumError, info := some (.checksum computed received), ok := some false } }

/-- R135, R55, what the checksum does not detect: exchanging any two of the eight payload bytes leaves VALID's answer as it
was. -/
def Obligations.ExchangedPayloadBytesAreNotDetected : Prop :=
  ∀ (f : Frame) (a b : Fin 10) (s : State), a.val < 8 → b.val < 8 →
    exec (.valid (frameWrite (frameWrite f a (frameRead f b)) b (frameRead f a))) s = exec (.valid f) s

/-- R137: the ChecksumFrame operations read no table: under any other configuration they answer the same. -/
def Obligations.ChecksumFamilyReadsNoTable : Prop :=
  ∀ (p : Payload) (cmd : Byte) (args : Args) (addr : Byte) (f : Frame) (cfg : UnitConfig) (s : State),
    (∀ r, exec (.csum p) s = .next (s.answer r) →
      exec (.csum p) { s with config := cfg } = .next (State.answer { s with config := cfg } r)) ∧
    (∀ r, exec (.build cmd args addr) s = .next (s.answer r) →
      exec (.build cmd args addr) { s with config := cfg } = .next (State.answer { s with config := cfg } r)) ∧
    (∀ r, exec (.valid f) s = .next (s.answer r) →
      exec (.valid f) { s with config := cfg } = .next (State.answer { s with config := cfg } r))

/-! ### Request layouts (42_frame_layouts.md; FILL = 0x00 is the spec's decision D14) -/

/-- R152, R154, R157, R166: GETSTATE, ADDRDEF, RDFLOW, ZEROGET carry the code, six zero bytes (D14) and byte 7; the trailer
is their sum. For ADDRDEF byte 7 is the open parameter `ADDRDEF_REQ_ADDR` (D30). -/
def Obligations.AddressOnlyRequestsBuildTheirFrames : Prop :=
  ∀ (addr : Byte) (s : State) (i : Instr) (code : Byte),
    (i, code) ∈ [(Instr.getstate addr, (0x01 : Byte)), (.addrdef addr, 0x02), (.rdflow addr, 0x11), (.zeroget addr, 0x23)] →
    ∃ f : Frame,
      exec i s = .next { s with request := none, response := some { frame := some f } } ∧
      f.payload = { cmd := code, args := ⟨0, 0, 0, 0, 0, 0⟩, addr := addr } ∧
      (trailer f).toNat = code.toNat + addr.toNat

/-- R156, R160, R161, R162: REGIME puts typemode at 1 and measuringmode at 3, RECOV its mode at 1, PLUG its mode at 2, READDR
the new address at 2; every other argument byte is zero (D14). -/
def Obligations.OneByteArgumentRequestsBuildTheirFrames : Prop :=
  ∀ (v w addr : Byte) (s : State) (i : Instr) (p : Payload),
    (i, p) ∈
      [(Instr.regime v w addr, ({ cmd := 0x18, args := ⟨v, 0, w, 0, 0, 0⟩, addr := addr } : Payload)),
        (.recov v addr, { cmd := 0x1F, args := ⟨v, 0, 0, 0, 0, 0⟩, addr := addr }),
        (.plug v addr, { cmd := 0x20, args := ⟨0, v, 0, 0, 0, 0⟩, addr := addr }),
        (.readdr v addr, { cmd := 0x1B, args := ⟨0, v, 0, 0, 0, 0⟩, addr := addr })] →
    ∃ f : Frame,
      exec i s = .next { s with request := none, response := some { frame := some f } } ∧
      f.payload = p ∧ checksumOk f = true

/-- R159, R165 (with D13: big-endian; D14): SETFLOW carries the flow at 2 and 3, ZEROSET the flag 1 at 3 and the shift at 4
and 5, each pattern unchanged. -/
def Obligations.SixteenBitArgumentRequestsBuildTheirFrames : Prop :=
  ∀ (v : Half) (addr : Byte) (s : State),
    (∃ f : Frame,
      exec (.setflow v addr) s = .next { s with request := none, response := some { frame := some f } } ∧
      (frameRead f 2).toNat * 256 + (frameRead f 3).toNat = v.toNat ∧
      f.payload = { cmd := 0x25, args := ⟨0, frameRead f 2, frameRead f 3, 0, 0, 0⟩, addr := addr } ∧
      checksumOk f = true) ∧
    (∃ f : Frame,
      exec (.zeroset v addr) s = .next { s with request := none, response := some { frame := some f } } ∧
      (frameRead f 4).toNat * 256 + (frameRead f 5).toNat = v.toNat ∧
      f.payload = { cmd := 0x23, args := ⟨0, 0, 1, frameRead f 4, frameRead f 5, 0⟩, addr := addr } ∧
      checksumOk f = true)

/-- R163, R164, R239: BAUD carries 0x00 for 9600, 0xFF for 19200 and 0x01 for 38400 at position 2 (D14 for the rest); every
other integer, a negative one too, raises ValidationError and no frame is built. -/
def Obligations.BaudEncodesThreeRatesRejectsTheRest : Prop :=
  ∀ (rate : Int) (addr : Byte) (s : State),
    (∀ c : Byte, (rate, c) ∈ [(9600, (0x00 : Byte)), (19200, 0xFF), (38400, 0x01)] →
      ∃ f : Frame,
        exec (.baud rate addr) s = .next { s with request := none, response := some { frame := some f } } ∧
        f.payload = { cmd := 0x16, args := ⟨0, c, 0, 0, 0, 0⟩, addr := addr } ∧ checksumOk f = true) ∧
    (rate ∉ [9600, 19200, 38400] →
      exec (.baud rate addr) s = .next { s with
        request := none
        response := some { status := .validationError, info := some (.validation rate) } })

/-- R164, the rate encoder alone: three codes, and ValidationError carrying the rate for every other integer. -/
def Obligations.RateEncoderHasThreeCodes : Prop :=
  ratecode 9600 = some 0x00 ∧ ratecode 19200 = some 0xFF ∧ ratecode 38400 = some 0x01 ∧
  ∀ (rate : Int) (addr : Byte) (s : State), rate ≠ 9600 → rate ≠ 19200 → rate ≠ 38400 →
    ratecode rate = none ∧
    exec (.baud rate addr) s = .next (s.raise (.validation rate)) ∧
    (s.raise (.validation rate)).response = some { status := .validationError, info := some (.validation rate) }

/-- R85, R150: the frame a request layout builds is the one its encoding gives. -/
def Obligations.LayoutsBuildTheirEncoding : Prop :=
  ∀ (i : Instr) (f : Frame) (s : State), encodeFrame i = some f →
    exec i s = .next { s with request := none, response := some { frame := some f } }

/-! ### Response layouts (42_frame_layouts.md) -/

/-- R153 (positions OPEN, D29): GETSTATE.R answers the two bytes at the configured positions. -/
def Obligations.GetstateResponseReadsConfiguredBytes : Prop :=
  ∀ (r : Frame) (s : State), checksumOk r = true →
    exec (.getstateR r) s = .next { s with
      request := none
      response := some
        { raw1 := some (frameRead r s.config.stateRspOff1), raw2 := some (frameRead r s.config.stateRspOff2) } }

/-- R155 (with D13): ADDRDEF.R answers the serial number in bytes 5 and 6, high byte first, and the address in byte 7. -/
def Obligations.AddrdefResponseReadsSerialAndAddress : Prop :=
  ∀ (r : Frame) (s : State), checksumOk r = true →
    ∃ serial : Half,
      serial.toNat = (frameRead r 5).toNat * 256 + (frameRead r 6).toNat ∧
      exec (.addrdefR r) s = .next { s with
        request := none
        response := some { address := some (frameRead r 7), serial := some serial } }

/-- R158 (with D13, and D21 for the setpoint's sign): RDFLOW.R answers two signed 16-bit numbers, from bytes 2, 3 and
4, 5. -/
def Obligations.RdflowResponseReadsSignedPair : Prop :=
  ∀ (r : Frame) (s : State), checksumOk r = true →
    ∃ flow setpoint : Int,
      (-32768 ≤ flow ∧ flow ≤ 32767 ∧
        (flow - ((frameRead r 2).toNat * 256 + (frameRead r 3).toNat : Nat)) % 65536 = 0) ∧
      (-32768 ≤ setpoint ∧ setpoint ≤ 32767 ∧
        (setpoint - ((frameRead r 4).toNat * 256 + (frameRead r 5).toNat : Nat)) % 65536 = 0) ∧
      exec (.rdflowR r) s = .next { s with
        request := none
        response := some { flow := some flow, setpoint := some setpoint } }

/-- R167 (with D13), R168: ZEROGET.R answers the pattern in bytes 4 and 5, ACK.R nothing. -/
def Obligations.ZerogetAndAckResponses : Prop :=
  ∀ (r : Frame) (s : State), checksumOk r = true →
    (∃ v : Half,
      v.toNat = (frameRead r 4).toNat * 256 + (frameRead r 5).toNat ∧
      exec (.zerogetR r) s = .next { s with request := none, response := some { shift := some v } }) ∧
    exec (.ackR r) s = .next { s with request := none, response := some {} }

/-- R136: the gate. Whatever VALID rejects a frame with, every response layout answers that frame with the same error, at
once and with no field. -/
def Obligations.NoFieldOfAnInvalidResponse : Prop :=
  ∀ (r : Frame) (s t : State) (v : Response) (i : Instr),
    exec (.valid r) s = .next t → t.response = some v → v.status ≠ .ok →
    i ∈ [Instr.getstateR r, .addrdefR r, .rdflowR r, .zerogetR r, .ackR r] →
    exec i s = .next { s with request := none, response := some { status := v.status, info := v.info } }

/-- I11, R151, R168: what a response layout answers depends on the bytes it reads and on the checksum's verdict alone; in
particular not on byte 0, and but for ADDRDEF.R not on byte 7. -/
def Obligations.UnreadResponseBytesDoNotMatter : Prop :=
  ∀ (r r' : Frame) (s : State), checksumOk r = true → checksumOk r' = true →
    (frameRead r s.config.stateRspOff1 = frameRead r' s.config.stateRspOff1 →
      frameRead r s.config.stateRspOff2 = frameRead r' s.config.stateRspOff2 →
      exec (.getstateR r) s = exec (.getstateR r') s) ∧
    ((∀ p : Fin 10, p.val ∈ [5, 6, 7] → frameRead r p = frameRead r' p) →
      exec (.addrdefR r) s = exec (.addrdefR r') s) ∧
    ((∀ p : Fin 10, p.val ∈ [2, 3, 4, 5] → frameRead r p = frameRead r' p) →
      exec (.rdflowR r) s = exec (.rdflowR r') s) ∧
    ((∀ p : Fin 10, p.val ∈ [4, 5] → frameRead r p = frameRead r' p) →
      exec (.zerogetR r) s = exec (.zerogetR r') s) ∧
    exec (.ackR r) s = exec (.ackR r') s

/-! ### The machine: frame, atomicity, errors, decoding -/

/-- R20, R66, R240, the frame of every instruction: it answers, with an error or without, and leaves the configuration and
the host as they were; the unit is idle again. -/
def Obligations.EveryInstructionAnswersAndKeepsTheRest : Prop :=
  ∀ (i : Instr) (s : State), ∃ r : Response,
    exec i s = .next { s with request := none, response := some r } ∧ r.WellFormed

/-- R62, R59, R242: the response of an operation depends on nothing but its own request and the configuration: not on an
earlier response, not on the host; so repeating a request repeats its response. -/
def Obligations.ResponseDependsOnRequestAndConfiguration : Prop :=
  ∀ (i : Instr) (s s' t t' : State), s.config = s'.config → exec i s = .next t → exec i s' = .next t' →
    t.response = t'.response

/-- R240, R111: when an operation raises, no result slot is in its response, with one exception: VALID reports `ok` = 0
beside ChecksumError. That exception is the model's choice between R133's words and R240's, log entry 6. -/
def Obligations.RaisedErrorsCarryNoResult : Prop :=
  ∀ (i : Instr) (s t : State) (r : Response) (e : UnitError),
    exec i s = .next t → t.response = some r → r.info = some e →
    r.status = e.status ∧ r.fields = none ∧ r.byte = none ∧ r.writeNeeded = none ∧ r.sum = none ∧ r.frame = none ∧
    r.raw1 = none ∧ r.raw2 = none ∧ r.address = none ∧ r.serial = none ∧ r.flow = none ∧ r.setpoint = none ∧
    r.shift = none ∧ (r.ok = none ∨ (∃ f, i = .valid f) ∧ r.ok = some false)

/-- R7, R62: with a request present, step is exec of the instruction the request decodes to, and nothing else. -/
def Obligations.StepRunsTheDecodedInstruction : Prop :=
  ∀ (s : State) (q : Request) (i : Instr), s.request = some q → decodeRequest q = .instr i → step s = exec i s

/-- R72, R237 (the spec's decision D4): a selector 8 to 15 is answered with IllegalOp and no result, whatever the slots
hold, and changes nothing else. -/
def Obligations.ReservedSelectorAnswersIllegalOp : Prop :=
  ∀ (s : State) (op : BitVec 4) (x : Slots), s.request = some (.unitOp op x) → 8 ≤ op.toNat →
    step s = .next { s with
      request := none
      response := some { status := .illegalOp, info := some (.illegalOp op) } }

/-- R75, R76, R77: words written out from the table decode to the instruction they stand for (response rows have no word
of their own). -/
def Obligations.TableWordsDecode : Prop :=
  decodeTableWord 8 0x0 = some (.dec1 (.byte 0)) ∧
  decodeTableWord 8 0x7 = some (.valid {}) ∧
  decodeTableWord 80 0x01000000000000030004 = some (.getstate 3) ∧
  decodeTableWord 80 0x1600FF00000000030118 = some (.baud 19200 3) ∧
  decodeTableWord 80 0x1801000200000003001E = some (.regime 1 2 3) ∧
  decodeTableWord 80 0x2300000101230003004B = some (.zeroset 0x0123 3) ∧
  decodeTableWord 80 0x23000000000000030026 = some (.zeroget 3) ∧
  decodeTableWord 80 0x250013880000000300C3 = some (.setflow 0x1388 3)

/-- R71, R73, R75, R76, R81: decoding the request an instruction is encoded as gives the instruction back, every operand
at every value; an instruction has an encoding exactly when it is well-formed (all but a BAUD at an unsupported rate). -/
def Obligations.DecodeOfEncodedInstruction : Prop :=
  ∀ i : Instr,
    (i.wf = true → ∃ q, encode i = some q ∧ decodeRequest q = .instr i) ∧ (i.wf = false → encode i = none)

/-- R73, R76, R80, R85: a frame that passes VALID and decodes to an instruction is that instruction's own encoding: each
valid request frame has one meaning, and no bit of it is dropped. -/
def Obligations.ValidFrameIsItsInstructionsEncoding : Prop :=
  ∀ (f : Frame) (i : Instr), checksumOk f = true → decodeReqFrame f = .instr i → encodeFrame i = some f

/-- R77, R151, R168: the response layout is the one of the request just sent, whatever the response's bytes. -/
def Obligations.ResponseLayoutFollowsTheRequestSent : Prop :=
  ∀ (r : Frame) (s : State),
    (s.request = some (.rspLayout .getstate r) → step s = exec (.getstateR r) s) ∧
    (s.request = some (.rspLayout .addrdef r) → step s = exec (.addrdefR r) s) ∧
    (s.request = some (.rspLayout .rdflow r) → step s = exec (.rdflowR r) s) ∧
    (s.request = some (.rspLayout .zeroget r) → step s = exec (.zerogetR r) s) ∧
    (∀ sent, sent ∈ [ReqLayout.regime, .setflow, .recov, .plug, .readdr, .baud, .zeroset] →
      s.request = some (.rspLayout sent r) → step s = exec (.ackR r) s)

/-! ### Reset and invariants -/

/-- R41, R260: after reset no request and no response are present, the configuration is the configured one, nothing is in
flight, and the step leaves that state alone. (Address supplied in variant b: R41; the empty input lists: the model's own,
log entry 10.) -/
def Obligations.ResetLeavesTheUnitIdle : Prop :=
  State.reset.request = none ∧ State.reset.response = none ∧ State.reset.config = .configured ∧
  State.reset.host.phase = .idle ∧
  (State.reset.host.params.variant = .a → State.reset.host.address = none ∧ State.reset.host.serial = none) ∧
  (State.reset.host.params.variant = .b → State.reset.host.sessionState = .identified) ∧
  step State.reset = .next State.reset

/-- R21, R66, R39: no step, of the unit or of the host, changes the tables or what is fixed for the session. -/
def Obligations.ConfigurationNeverChanges : Prop :=
  ∀ s t : State, step s = .next t → t.config = s.config ∧ t.host.params = s.host.params

/-- R31, R33, R38, R131, R135, R240: whatever state a step starts from in which every response is sound and every frame put
on the line carries its checksum, it leaves such a state. -/
def Obligations.StepKeepsResponsesAndFramesSound : Prop :=
  ∀ s t : State, s.Sound → step s = .next t → t.Sound

/-- The state after reset is sound. -/
def Obligations.ResetIsSound : Prop := State.reset.Sound

/-- R196, R204 to R214, R264: the host never waits for what the unit or the transport will not give it: a step from a state
in step is no fault and leaves a state in step. -/
def Obligations.StepKeepsHostAndUnitInStep : Prop :=
  ∀ s : State, s.InStep → (∀ e, step s ≠ .fault e) ∧ ∀ t, step s = .next t → t.InStep

/-- The state after reset is in step, also with any calls and any transport answers to come. -/
def Obligations.ResetIsInStep : Prop :=
  ∀ (p : HostParams) (calls : List Call) (inbox : List TransportReply),
    State.InStep { State.reset with host := { HostState.fresh p with calls := calls, inbox := inbox } }

/-- R15: no run, of whatever length, from a state in step ends in a fault. -/
def Obligations.NoRunFromAStateInStepFaults : Prop :=
  ∀ (n : Nat) (s : State), s.InStep → FaultFree s n

/-- R39, R201, R204: the cached address and serial number change only where the response to an address-define exchange has
been validated without error, and become the ones it carries, or where the response to an address redefinition has, and then
the address alone, to the one asked for, and only under the open parameter `readdressUpdates` (N18, D34; log entry 4). That
nothing else ever unsets the address is the model's choice, log entry 21. -/
def Obligations.IdentityChangesOnlyByValidatedExchange : Prop :=
  ∀ s t : State, step s = .next t → (t.host.address ≠ s.host.address ∨ t.host.serial ≠ s.host.serial) →
    ∃ x r, s.host.phase = .parsing x ∧ s.response = some r ∧ r.info = none ∧
      ((x.call = .identify ∧ ∃ a n, r.address = some a ∧ r.serial = some n ∧
          t.host.address = some a ∧ t.host.serial = some n) ∨
        ∃ a, x.call = .redefineAddress a ∧ s.host.params.readdressUpdates = true ∧
          t.host.address = some a ∧ t.host.serial = s.host.serial)

/-! ### The host reference (43_host_reference.md) -/

/-- R190, R192: for a positive `max_flow`, `to_engineering` is the signed register over 10000 times `max_flow`; a zero
`max_flow` fails with ValidationError. A negative one has no value in the spec (I8), and the model refuses it before any
conversion (log entry 17). (Exact rationals: the model's choice, I6, log entry 11.) -/
def Obligations.ToEngineeringScalesSignedRegister : Prop :=
  ∀ (raw : Half) (m : Rat),
    (0 < m → toEngineering raw m =
      .ok ((if raw.toNat < 32768 then (raw.toNat : Rat) else (raw.toNat : Rat) - 65536) * m / 10000)) ∧
    (m = 0 → ∃ e, toEngineering raw m = .error e ∧ e.status = .validationError)

/-- R193, X3, DOC's conversion property: for a positive `max_flow` and a flow within it, converting to a register and back
is off by at most `max_flow` / 10000. It holds for every value of the open parameter ROUND_HALF. -/
def Obligations.FlowConversionRoundTrip : Prop :=
  ∀ f m : Rat, 0 < m → -m ≤ f → f ≤ m →
    ∃ raw g, fromEngineering f m = .ok raw ∧ toEngineering raw m = .ok g ∧ |g - f| ≤ m / 10000

/-- R204: with the address known, `identify` returns it and sends no frame; else the address-define exchange is begun, the
address and serial number of its validated response are captured, and the session is Identified; a response that fails VALID,
or a transport failure, leaves the identity as it was. Stated over the model's phases and small steps (the model's choice, log
entry 10), with the transport's answers as an input list (the model's choice, log entry 13). -/
def Obligations.IdentifyDiscoversOnceThenReturns : Prop :=
  ∀ s : State, s.request = none →
    (∀ (a : Byte) (rest : List Call),
      s.host.phase = .idle → s.host.calls = .identify :: rest → s.host.address = some a →
      step s = .next { s with
        response := none
        host := { s.host with calls := rest, phase := .idle, result := some (.returned (.address a)) } }) ∧
    (∀ rest : List Call,
      s.host.phase = .idle → s.host.calls = .identify :: rest → s.host.address = none →
      s.host.params.variant = .a →
      step s = .next { s with
        request := some (.reqLayout .addrdef { addr := s.config.addrdefReqAddr })
        response := none
        host := { s.host with
          calls := rest, phase := .building { call := .identify, leg := .only, sent := .addrdef } } }) ∧
    (∀ (x : Exchange) (r : Response) (a : Byte) (n : Half),
      s.host.phase = .parsing x → x.call = .identify → s.response = some r →
      r.info = none → r.address = some a → r.serial = some n →
      ∃ t, step s = .next t ∧ t.host.address = some a ∧ t.host.serial = some n ∧
        t.host.sessionState = .identified ∧ t.host.phase = .idle ∧ t.host.result = some (.returned (.address a))) ∧
    (∀ (x : Exchange) (r : Response) (e : UnitError),
      s.host.phase = .parsing x → s.response = some r → r.info = some e →
      ∃ t, step s = .next t ∧ t.host.address = s.host.address ∧ t.host.serial = s.host.serial ∧
        t.host.phase = .idle ∧ t.host.result = some (.failed (.unit e))) ∧
    (∀ (x : Exchange) (f : Frame) (reply : TransportReply) (more : List TransportReply) (d : Nat),
      s.host.phase = .writing x f ∨ s.host.phase = .reading x → s.host.inbox = reply :: more → reply.error = some d →
      ∃ t, step s = .next t ∧ t.host.address = s.host.address ∧ t.host.serial = s.host.serial ∧
        t.host.phase = .idle ∧ t.host.result = some (.failed (.transport d)))

/-- R203 (every operation but `identify`: the recommendation of R203 for D34, log entry 12): while the address is unset the
operation ends before any I/O. Where its argument is good it fails with NotIdentifiedError; in particular where no unsupported
rate, no conversion with `max_flow` zero and no flow to convert is asked for. Where its argument is bad as well, the open
parameter D33 says which of NotIdentifiedError and that argument's ValidationError it fails with. (Which arguments are
checked: log entry 16.) -/
def Obligations.UnidentifiedOperationSendsNoFrame : Prop :=
  ∀ (s : State) (c : Call) (rest : List Call),
    s.request = none → s.host.phase = .idle → s.host.calls = c :: rest → s.host.address = none → c ≠ .identify →
    ∃ e, step s = .next { s with
        response := none
        host := { s.host with calls := rest, phase := .idle, result := some (.failed e) } } ∧
      (badArgument s.host.params c = none → e = .notIdentified c) ∧
      ((∀ rate, c = .setBaudrate rate → rate ∈ [9600, 19200, 38400]) →
        (c = .readFlow → s.host.params.maxFlow ≠ 0) → (∀ f, c = .writeFlow f → f = 0) → e = .notIdentified c) ∧
      (∀ bad, badArgument s.host.params c = some bad →
        bad.status = .validationError ∧ e = if s.host.params.validationFirst then bad else .notIdentified c)

/-- R213, R192, R235: an unsupported baud rate, and a flow conversion with `max_flow` zero, fail with ValidationError before
any frame is built or any transport call made. -/
def Obligations.ValidationFailsBeforeAnyIO : Prop :=
  ∀ (s : State) (c : Call) (rest : List Call) (a : Byte),
    s.request = none → s.host.phase = .idle → s.host.calls = c :: rest → s.host.address = some a →
    ((∃ rate, c = .setBaudrate rate ∧ rate ∉ [9600, 19200, 38400]) ∨
      (s.host.params.maxFlow = 0 ∧ (c = .readFlow ∨ ∃ f, c = .writeFlow f ∧ f ≠ 0))) →
    ∃ e, e.status = .validationError ∧ step s = .next { s with
      response := none
      host := { s.host with calls := rest, phase := .idle, result := some (.failed e) } }

/-- R195, R196, R197, R215, R271: in each phase that waits for the transport, the call to be made is fixed by the phase; the
host blocks while there is no answer; a failing answer ends the operation with TransportError, uninterpreted, that one call
logged, with no retry and the identity as it was. (Phases and answers: log entries 10 and 13.) -/
def Obligations.TransportBlocksOrPassesItsError : Prop :=
  ∀ (s : State) (call : TransportCall), s.request = none →
    (∃ x f, s.host.phase = .writing x f ∧ call = .write f) ∨
      (∃ x, s.host.phase = .reading x ∧ call = .read 10) ∨
      (∃ c a n more got, s.host.phase = .regReading c a n more got ∧ call = .readRegisters a n) ∨
      (∃ c leg a v, s.host.phase = .regWriting c leg a v ∧ call = .writeRegister a v) →
    (s.host.inbox = [] → step s = .next s) ∧
    (∀ reply more d, s.host.inbox = reply :: more → reply.error = some d →
      step s = .next { s with
        response := none
        host := { s.host with
          inbox := more, log := s.host.log ++ [call], phase := .idle, result := some (.failed (.transport d)) } })

/-- R196, R264: an exchange of variant a writes the frame the unit built, then reads ten bytes, and hands them to the unit
with the layout of the request sent. -/
def Obligations.ExchangeWritesThenReadsThenParses : Prop :=
  ∀ (s : State) (x : Exchange) (f : Frame), s.request = none →
    (s.host.phase = .building x → s.response = some { frame := some f } →
      step s = .next { s with response := none, host := { s.host with phase := .writing x f } }) ∧
    (∀ reply more, s.host.phase = .writing x f → s.host.inbox = reply :: more → reply.error = none →
      step s = .next { s with
        response := none
        host := { s.host with inbox := more, log := s.host.log ++ [.write f], phase := .reading x } }) ∧
    (∀ reply more, s.host.phase = .reading x → s.host.inbox = reply :: more → reply.error = none →
      step s = .next { s with
        request := some (.rspLayout x.sent reply.frame)
        response := none
        host := { s.host with inbox := more, log := s.host.log ++ [.read 10], phase := .parsing x } })

/-- R209, R268, X5: with no difference found (`write_needed` = 0) no configuration is written: a zero flow ends the operation
with nothing written at all; a flow that is not zero goes out converted, as a SETFLOW request in variant a and to register
0x0004 in variant b. (Phases: log entry 10.) -/
def Obligations.WriteFlowWithoutDifferenceWritesOnlyTheSetpoint : Prop :=
  ∀ (s : State) (flow : Rat) (b : Byte), s.request = none → s.host.phase = .coding (.writeFlow flow) →
    s.response = some { byte := some b, writeNeeded := some false } →
    (flow = 0 → step s = .next { s with
      response := none
      host := { s.host with phase := .idle, result := some (.returned .done) } }) ∧
    (∀ raw, flow ≠ 0 → fromEngineering flow s.host.params.maxFlow = .ok raw →
      (∀ a, s.host.params.variant = .a → s.host.address = some a →
        step s = .next { s with
          request := some (.reqLayout .setflow { flowRaw := raw, addr := a })
          response := none
          host := { s.host with
            phase := .building { call := .writeFlow flow, leg := .setpoint raw, sent := .setflow } } }) ∧
      (s.host.params.variant = .b →
        step s = .next { s with
          response := none
          host := { s.host with phase := .regWriting (.writeFlow flow) (.setpoint raw) 0x0004 raw } }))

/-- R209, R214, R112 (D10), R273: with a difference found the write half goes first. In variant b it is the encoded byte,
zero-extended, to register 0x0002. In variant a it is, under the spec's reading (D28), a PLUG request with the member value
of CLOSED for a zero flow and of REGULATION else; under any other setting of that open parameter the request it gives (log
entry 15). When it is done, a zero flow writes nothing more, and the setpoint of any other flow follows. (Phases: log
entry 10.) -/
def Obligations.WriteHalfGoesFirstThenTheSetpoint : Prop :=
  ∀ (s : State) (flow : Rat), s.request = none →
    (∀ b, s.host.phase = .coding (.writeFlow flow) →
      s.response = some { byte := some b, writeNeeded := some true } →
      (s.host.params.variant = .b →
        ∃ v : Half, v.toNat = b.toNat ∧ step s = .next { s with
          response := none
          host := { s.host with phase := .regWriting (.writeFlow flow) .writeBack 0x0002 v } }) ∧
      (∀ a, s.host.params.variant = .a → s.host.address = some a →
        (s.host.params.writeBack = .plug → step s = .next { s with
          request := some (.reqLayout .plug
            { mode := if flow = 0 then s.host.params.valveClosed else s.host.params.valveRegulation, addr := a })
          response := none
          host := { s.host with
            phase := .building { call := .writeFlow flow, leg := .writeBack, sent := .plug } } }) ∧
        (∀ closed regulation, s.host.params.writeBack = .given closed regulation → step s = .next { s with
          request := some (.reqLayout (if flow = 0 then closed else regulation).1
            { (if flow = 0 then closed else regulation).2 with addr := a })
          response := none
          host := { s.host with
            phase := .building
              { call := .writeFlow flow, leg := .writeBack, sent := (if flow = 0 then closed else regulation).1 } } }))) ∧
    (∀ v reply more, s.host.params.variant = .b →
      s.host.phase = .regWriting (.writeFlow flow) .writeBack 0x0002 v → s.host.inbox = reply :: more →
      reply.error = none →
      (flow = 0 → step s = .next { s with
        response := none
        host := { s.host with
          inbox := more, log := s.host.log ++ [.writeRegister 0x0002 v], phase := .idle
          result := some (.returned .done) } }) ∧
      (∀ raw, flow ≠ 0 → fromEngineering flow s.host.params.maxFlow = .ok raw → step s = .next { s with
        response := none
        host := { s.host with
          inbox := more, log := s.host.log ++ [.writeRegister 0x0002 v]
          phase := .regWriting (.writeFlow flow) (.setpoint raw) 0x0004 raw } })) ∧
    (∀ x r, s.host.params.variant = .a → s.host.phase = .parsing x → x.call = .writeFlow flow → x.leg = .writeBack →
      s.response = some r → r.info = none →
      (flow = 0 → step s = .next { s with
        response := none
        host := { s.host with phase := .idle, result := some (.returned .done) } }) ∧
      (∀ raw a, flow ≠ 0 → fromEngineering flow s.host.params.maxFlow = .ok raw → s.host.address = some a →
        step s = .next { s with
          request := some (.reqLayout .setflow { flowRaw := raw, addr := a })
          response := none
          host := { s.host with
            phase := .building { call := .writeFlow flow, leg := .setpoint raw, sent := .setflow } } })) ∧
    (∀ x r raw, s.host.phase = .parsing x → x.call = .writeFlow flow → x.leg = .setpoint raw →
      s.response = some r → r.info = none → step s = .next { s with
        response := none
        host := { s.host with phase := .idle, result := some (.returned .done) } }) ∧
    (∀ raw reply more, s.host.phase = .regWriting (.writeFlow flow) (.setpoint raw) 0x0004 raw →
      s.host.inbox = reply :: more → reply.error = none → step s = .next { s with
        response := none
        host := { s.host with
          inbox := more, log := s.host.log ++ [.writeRegister 0x0004 raw], phase := .idle
          result := some (.returned .done) } })
end

