-- ==== Sys2Proof/Laws/Operands.lean ====
section
/-! SUPPORT. What the operand forms do: splitting and joining 16-bit fields, reading and writing positions of a frame, the
range of a checksum. -/

namespace Sys2Proof

theorem be16_toNat (h l : Byte) : (be16 h l).toNat = h.toNat * 256 + l.toNat := by
  have hl := l.isLt
  simp only [be16, BitVec.toNat_append]
  rw [← Nat.shiftLeft_add_eq_or_of_lt hl, Nat.shiftLeft_eq]

theorem hiByte_toNat (v : Half) : (hiByte v).toNat = v.toNat / 256 := by
  have := v.isLt
  simp only [hiByte, BitVec.extractLsb'_toNat, Nat.shiftRight_eq_div_pow]
  omega

theorem loByte_toNat (v : Half) : (loByte v).toNat = v.toNat % 256 := by
  simp [loByte, BitVec.extractLsb'_toNat]

theorem be16_hi_lo (v : Half) : be16 (hiByte v) (loByte v) = v := by
  apply BitVec.eq_of_toNat_eq
  rw [be16_toNat, hiByte_toNat, loByte_toNat]
  omega

theorem hiByte_be16 (h l : Byte) : hiByte (be16 h l) = h := by
  have := l.isLt
  apply BitVec.eq_of_toNat_eq
  rw [hiByte_toNat, be16_toNat]
  omega

theorem loByte_be16 (h l : Byte) : loByte (be16 h l) = l := by
  have := l.isLt
  apply BitVec.eq_of_toNat_eq
  rw [loByte_toNat, be16_toNat]
  omega

theorem be16_inj {h l h' l' : Byte} (e : be16 h l = be16 h' l') : h = h' ∧ l = l' :=
  ⟨by rw [← hiByte_be16 h l, e, hiByte_be16], by rw [← loByte_be16 h l, e, loByte_be16]⟩

theorem s16_eq_toInt (v : Half) : s16 v = v.toInt := by
  unfold s16
  rw [BitVec.toInt_eq_toNat_cond]
  split <;> split <;> omega

theorem s16_range (v : Half) : -32768 ≤ s16 v ∧ s16 v ≤ 32767 := by
  have := v.isLt
  unfold s16
  split <;> omega

theorem frameRead_frameWrite (f : Frame) (a : Fin 10) (v : Byte) : frameRead (frameWrite f a v) a = v := by
  fin_cases a <;> rfl

theorem frameRead_frameWrite_ne (f : Frame) {a b : Fin 10} (v : Byte) (h : b ≠ a) :
    frameRead (frameWrite f a v) b = frameRead f b := by
  fin_cases a <;> fin_cases b <;> first | rfl | exact absurd rfl h

/-- Two frames with the same ten bytes are one frame. -/
theorem frame_ext {f g : Frame} (h : ∀ a, frameRead f a = frameRead g a) : f = g := by
  obtain ⟨⟨c, ⟨a1, a2, a3, a4, a5, a6⟩, d⟩, k, l⟩ := f
  obtain ⟨⟨c', ⟨b1, b2, b3, b4, b5, b6⟩, d'⟩, k', l'⟩ := g
  have h0 := h 0; have h1 := h 1; have h2 := h 2; have h3 := h 3; have h4 := h 4
  have h5 := h 5; have h6 := h 6; have h7 := h 7; have h8 := h 8; have h9 := h 9
  simp only [frameRead] at h0 h1 h2 h3 h4 h5 h6 h7 h8 h9
  subst h0 h1 h2 h3 h4 h5 h6 h7 h8 h9
  rfl

/-- The sum of eight bytes is at most 2040. -/
theorem payloadSum_le (p : Payload) : payloadSum p ≤ 2040 := by
  unfold payloadSum
  have := p.cmd.isLt; have := p.args.a1.isLt; have := p.args.a2.isLt; have := p.args.a3.isLt
  have := p.args.a4.isLt; have := p.args.a5.isLt; have := p.args.a6.isLt; have := p.addr.isLt
  omega

/-- The modulus never changes the sum. -/
theorem checksum_toNat (p : Payload) : (checksum p).toNat = payloadSum p := by
  have := payloadSum_le p
  simp only [checksum, BitVec.toNat_ofNat]
  omega

@[simp] theorem sealFrame_payload (p : Payload) : (sealFrame p).payload = p := rfl

/-- A sealed frame's trailer is its checksum. -/
@[simp] theorem trailer_sealFrame (p : Payload) : trailer (sealFrame p) = checksum p := be16_hi_lo _

/-- A frame whose trailer is its checksum is its payload, sealed. -/
theorem eq_sealFrame {f : Frame} (h : checksum f.payload = trailer f) : f = sealFrame f.payload := by
  obtain ⟨p, k, l⟩ := f
  simp only [trailer] at h
  simp [sealFrame, h, hiByte_be16, loByte_be16]

/-- The rate encoder, read off its table (R164). -/
theorem ratecode_eq (rate : Int) :
    ratecode rate =
      if rate = 9600 then some 0x00 else if rate = 19200 then some 0xFF else if rate = 38400 then some 0x01 else none := by
  unfold ratecode rateCodes
  split_ifs with h1 h2 h3
  · subst h1; rfl
  · subst h2; rfl
  · subst h3; rfl
  · simp [Ne.symm h1, Ne.symm h2, Ne.symm h3]

/-- The table read the other way: no two rates share a code. -/
theorem rateOfCode_eq (c : Byte) :
    rateOfCode c =
      if c = 0x00 then some 9600 else if c = 0xFF then some 19200 else if c = 0x01 then some 38400 else none := by
  unfold rateOfCode rateCodes
  split_ifs with h1 h2 h3
  · subst h1; rfl
  · subst h2; rfl
  · subst h3; rfl
  · simp only [BitVec.ofNat_eq_ofNat] at h1 h2 h3
    simp [Ne.symm h1, Ne.symm h2, Ne.symm h3]

theorem rateOfCode_ratecode {rate : Int} {c : Byte} (h : ratecode rate = some c) : rateOfCode c = some rate := by
  rw [ratecode_eq] at h
  rw [rateOfCode_eq]
  split_ifs at h <;> cases h <;> subst_vars <;> rfl

theorem ratecode_rateOfCode {rate : Int} {c : Byte} (h : rateOfCode c = some rate) : ratecode rate = some c := by
  rw [rateOfCode_eq] at h
  rw [ratecode_eq]
  split_ifs at h <;> cases h <;> subst_vars <;> rfl

end Sys2Proof
end

