-- ==== Sys2Proof/Laws/Codec.lean ====
section
/-! SUPPORT. What the codec's recursions do, each said once: the decode of a table, the shape and domain checks of an encode,
the packing; and what well-formedness (R25, R26) buys for the bits of a packed byte. -/

namespace Sys2Proof.Machine

variable {tab : Tab} {raw : Byte}

/-! ### Decoding a table -/

theorem decodeTableFrom_of_decodes {t : Table} (h : Decodes t raw) (k : Nat) :
    decodeTableFrom tab raw k t = .ok (t.mapIdx fun j fs => ⟨tab, k + j, extractField raw fs⟩) := by
  induction t generalizing k with
  | nil => rfl
  | cons fs t ih =>
    obtain ⟨m, hm⟩ := Option.isSome_iff_exists.1 (h fs (by simp))
    have ht : Decodes t raw := fun x hx => h x (by simp [hx])
    simp only [decodeTableFrom, hm, ih ht, List.mapIdx_cons, Nat.add_zero]
    congr 3
    funext j fs
    rw [Nat.add_assoc, Nat.add_comm 1 j]

theorem decodeTableFrom_of_bad {t : Table} {j : Nat} {fs : FieldSpec} (h : FirstBad t raw j fs) (k : Nat) :
    decodeTableFrom tab raw k t = .error (.domain tab (k + j) fs.name (extractField raw fs)) := by
  induction t generalizing j k with
  | nil => simp [FirstBad] at h
  | cons g t ih =>
    obtain ⟨hj, hbad, hpre⟩ := h
    cases j with
    | zero =>
      simp only [List.getElem?_cons_zero, Option.some.injEq] at hj
      subst hj
      simp [decodeTableFrom, hbad]
    | succ j =>
      simp only [List.getElem?_cons_succ] at hj
      obtain ⟨m, hm⟩ := Option.isSome_iff_exists.1 (hpre g (by simp))
      have hb : FirstBad t raw j fs := ⟨hj, hbad, fun x hx => hpre x (by simp [hx])⟩
      simp only [decodeTableFrom, hm, ih hb]
      rw [Nat.add_assoc, Nat.add_comm 1 j]

/-- A byte decodes, or some lowest position does not. -/
theorem decodes_or_firstBad (t : Table) (raw : Byte) : Decodes t raw ∨ ∃ k fs, FirstBad t raw k fs := by
  induction t with
  | nil => exact .inl fun _ h => absurd h (by simp)
  | cons g t ih =>
    cases hg : memberOf g.domain (extractField raw g) with
    | none => exact .inr ⟨0, g, rfl, hg, fun _ h => absurd h (by simp)⟩
    | some m =>
      have hs : (memberOf g.domain (extractField raw g)).isSome = true := by simp [hg]
      rcases ih with h | ⟨k, fs, h1, h2, h3⟩
      · exact .inl fun x hx => by
          rcases List.mem_cons.1 hx with rfl | hx
          · exact hs
          · exact h x hx
      · refine .inr ⟨k + 1, fs, by simpa using h1, h2, fun x hx => ?_⟩
        rw [List.take_succ_cons] at hx
        rcases List.mem_cons.1 hx with rfl | hx
        · exact hs
        · exact h3 x hx

theorem decodeTable_of_decodes {t : Table} (h : Decodes t raw) : decodeTable t tab raw = .ok (fieldsOf t tab raw) := by
  simp [decodeTable, decodeTableFrom_of_decodes h, fieldsOf]

theorem decodeTable_of_bad {t : Table} {k : Nat} {fs : FieldSpec} (h : FirstBad t raw k fs) :
    decodeTable t tab raw = .error (.domain tab k fs.name (extractField raw fs)) := by
  simp [decodeTable, decodeTableFrom_of_bad h]

/-- All a table decode can answer. -/
theorem decodeTable_cases (t : Table) (tab : Tab) (raw : Byte) :
    (Decodes t raw ∧ decodeTable t tab raw = .ok (fieldsOf t tab raw)) ∨
      ∃ k fs, FirstBad t raw k fs ∧ decodeTable t tab raw = .error (.domain tab k fs.name (extractField raw fs)) := by
  rcases decodes_or_firstBad t raw with h | ⟨k, fs, h⟩
  · exact .inl ⟨h, decodeTable_of_decodes h⟩
  · exact .inr ⟨k, fs, h, decodeTable_of_bad h⟩

/-- A decode that answers fields answers those of the table. -/
theorem decodeTable_ok {t : Table} {out : List FieldValue} (h : decodeTable t tab raw = .ok out) :
    Decodes t raw ∧ out = fieldsOf t tab raw := by
  rcases decodeTable_cases t tab raw with ⟨hd, he⟩ | ⟨k, fs, _, he⟩
  · exact ⟨hd, by rw [he] at h; exact (Except.ok.inj h).symm⟩
  · rw [he] at h; cases h

@[simp] theorem fieldsOf_length (t : Table) : (fieldsOf t tab raw).length = t.length := by simp [fieldsOf]

theorem fieldsOf_getElem? (t : Table) (k : Nat) :
    (fieldsOf t tab raw)[k]? = (t[k]?).map fun fs => ⟨tab, k, extractField raw fs⟩ := by simp [fieldsOf]

theorem fieldsOf_vals (t : Table) : (fieldsOf t tab raw).map FieldValue.val = t.map (extractField raw) := by
  apply List.ext_getElem? ; intro k
  simp [fieldsOf]
  cases t[k]? <;> rfl

/-! ### The checks of an encode -/

theorem firstMisplaced_none {seq : List FieldValue} {k : Nat} :
    firstMisplaced k seq = none ↔ ∀ (j : Nat) (v : FieldValue), seq[j]? = some v → v.tab = .first ∧ v.idx = k + j := by
  induction seq generalizing k with
  | nil => simp [firstMisplaced]
  | cons v rest ih =>
    unfold firstMisplaced
    constructor
    · intro h
      split at h
      · rename_i hv
        intro j w hw
        cases j with
        | zero => simp only [List.getElem?_cons_zero, Option.some.injEq] at hw; subst hw; simpa using hv
        | succ j =>
          have := (ih.1 h) j w (by simpa using hw)
          exact ⟨this.1, by omega⟩
      · cases h
    · intro h
      have h0 := h 0 v (by simp)
      rw [if_pos (by simpa using h0)]
      exact ih.2 fun j w hw => by
        have := h (j + 1) w (by simpa using hw)
        exact ⟨this.1, by omega⟩

theorem firstMisplaced_at {seq : List FieldValue} {k i : Nat} {v : FieldValue} (hv : seq[i]? = some v)
    (hbad : ¬ (v.tab = .first ∧ v.idx = k + i))
    (hpre : ∀ (j : Nat) (w : FieldValue), j < i → seq[j]? = some w → w.tab = .first ∧ w.idx = k + j) :
    firstMisplaced k seq = some (.shapeIdentity (k + i) (some (v.tab, v.idx))) := by
  induction seq generalizing k i with
  | nil => simp at hv
  | cons w rest ih =>
    unfold firstMisplaced
    cases i with
    | zero =>
      simp only [List.getElem?_cons_zero, Option.some.injEq] at hv
      subst hv
      rw [if_neg (by simpa using hbad)]
      rfl
    | succ i =>
      have h0 := hpre 0 w (by omega) (by simp)
      rw [if_pos (by simpa using h0), ih (k := k + 1) (i := i) (by simpa using hv)]
      · rw [Nat.add_assoc, Nat.add_comm 1 i]
      · intro hc; exact hbad ⟨hc.1, by omega⟩
      · intro j w hj hw
        have := hpre (j + 1) w (by omega) (by simpa using hw)
        exact ⟨this.1, by omega⟩

/-- Whatever `firstMisplaced` answers is a ShapeError. -/
theorem firstMisplaced_status {seq : List FieldValue} {k : Nat} {e : UnitError} (h : firstMisplaced k seq = some e) :
    e.status = .shapeError := by
  induction seq generalizing k with
  | nil => simp [firstMisplaced] at h
  | cons v rest ih =>
    unfold firstMisplaced at h
    split at h
    · exact ih h
    · cases h; rfl

theorem firstForeign_none {t : Table} {seq : List FieldValue} {k : Nat} (hl : seq.length = t.length) :
    firstForeign k t seq = none ↔
      ∀ (j : Nat) (fs : FieldSpec) (v : FieldValue), t[j]? = some fs → seq[j]? = some v →
        (memberOf fs.domain v.val).isSome = true := by
  induction t generalizing seq k with
  | nil =>
    have : seq = [] := List.eq_nil_of_length_eq_zero hl
    simp [firstForeign, this]
  | cons fs t ih =>
    cases seq with
    | nil => simp at hl
    | cons v rest =>
      have hl' : rest.length = t.length := by simpa using hl
      unfold firstForeign
      constructor
      · intro h
        split at h
        · cases h
        · rename_i m hm
          intro j g w hg hw
          cases j with
          | zero => simp at hg hw; subst hg hw; simp [hm]
          | succ j => exact (ih hl').1 h j g w (by simpa using hg) (by simpa using hw)
      · intro h
        obtain ⟨m, hm⟩ := Option.isSome_iff_exists.1 (h 0 fs v (by simp) (by simp))
        simp only [hm]
        exact (ih hl').2 fun j g w hg hw => h (j + 1) g w (by simpa using hg) (by simpa using hw)

theorem firstForeign_at {t : Table} {seq : List FieldValue} {k i : Nat} {fs : FieldSpec} {v : FieldValue}
    (ht : t[i]? = some fs) (hv : seq[i]? = some v) (hbad : memberOf fs.domain v.val = none)
    (hpre : ∀ (j : Nat) (g : FieldSpec) (w : FieldValue), j < i → t[j]? = some g → seq[j]? = some w →
      (memberOf g.domain w.val).isSome = true) :
    firstForeign k t seq = some (.domain .first (k + i) fs.name v.val) := by
  induction t generalizing seq k i with
  | nil => simp at ht
  | cons g t ih =>
    cases seq with
    | nil => simp at hv
    | cons w rest =>
      unfold firstForeign
      cases i with
      | zero =>
        simp only [List.getElem?_cons_zero, Option.some.injEq] at ht hv
        subst ht hv
        simp [hbad]
      | succ i =>
        obtain ⟨m, hm⟩ := Option.isSome_iff_exists.1 (hpre 0 g w (by omega) (by simp) (by simp))
        simp only [hm]
        rw [ih (k := k + 1) (i := i) (by simpa using ht) (by simpa using hv)
          fun j g w hj hg hw => hpre (j + 1) g w (by omega) (by simpa using hg) (by simpa using hw)]
        rw [Nat.add_assoc, Nat.add_comm 1 i]

/-! ### Packing -/

theorem foldl_or (l : List Byte) (acc : Byte) : l.foldl (· ||| ·) acc = acc ||| l.foldl (· ||| ·) 0 := by
  induction l generalizing acc with
  | nil => simp
  | cons b l ih => rw [List.foldl_cons, List.foldl_cons, ih, ih (0 ||| b)]; simp [BitVec.or_assoc]

theorem packFrom_eq (t : Table) (seq : List FieldValue) (acc : Byte) :
    packFrom acc t seq = (List.zipWith insertField t (seq.map FieldValue.val)).foldl (· ||| ·) acc := by
  induction t generalizing seq acc with
  | nil => simp [packFrom]
  | cons fs t ih => cases seq <;> simp [packFrom, ih]

theorem pack_eq_packedByte (t : Table) (seq : List FieldValue) : pack t seq = packedByte t (seq.map FieldValue.val) :=
  packFrom_eq t seq 0

@[simp] theorem packedByte_nil (vals : List Byte) : packedByte [] vals = 0 := rfl

theorem packedByte_cons (fs : FieldSpec) (t : Table) (v : Byte) (vals : List Byte) :
    packedByte (fs :: t) (v :: vals) = insertField fs v ||| packedByte t vals := by
  simp only [packedByte, List.zipWith_cons_cons, List.foldl_cons]
  rw [foldl_or]
  simp

/-! ### Member values and masks (R26) -/

theorem memberOf_value {dom : List Member} {v : Byte} (h : (memberOf dom v).isSome = true) :
    ∃ m ∈ dom, m.value = v.toNat := by
  simpa [memberOf] using h

/-- A member value shifted into place lies inside the mask, and comes back when shifted down. -/
theorem insertField_inside {fs : FieldSpec} {v : Byte} (hw : fs.WF) (h : (memberOf fs.domain v).isSome = true) :
    insertField fs v &&& fs.mask = insertField fs v ∧ insertField fs v >>> fs.shift = v := by
  obtain ⟨m, hm, hv⟩ := memberOf_value h
  have hf := hw.2.2 m hm
  rw [FieldSpec.Fits, hv] at hf
  have hlt : v.toNat <<< fs.shift.toNat < 256 := by
    rw [← hf]
    exact Nat.lt_of_le_of_lt Nat.and_le_right fs.mask.isLt
  have hn : (insertField fs v).toNat = v.toNat <<< fs.shift.toNat := by
    simp only [insertField, BitVec.shiftLeft_eq', BitVec.toNat_shiftLeft]
    exact Nat.mod_eq_of_lt hlt
  constructor
  · apply BitVec.eq_of_toNat_eq
    rw [BitVec.toNat_and, hn, hf]
  · apply BitVec.eq_of_toNat_eq
    rw [BitVec.ushiftRight_eq', BitVec.toNat_ushiftRight, hn, Nat.shiftLeft_shiftRight]

theorem extractField_insertField {fs : FieldSpec} {v : Byte} (hw : fs.WF) (h : (memberOf fs.domain v).isSome = true) :
    extractField (insertField fs v) fs = v := by
  obtain ⟨h1, h2⟩ := insertField_inside hw h
  rw [extractField, h1, h2]

/-- The values lie in the domains of the table's fields, position by position. -/
def Fit (t : Table) (vals : List Byte) : Prop :=
  ∀ (j : Nat) (fs : FieldSpec) (v : Byte), t[j]? = some fs → vals[j]? = some v → (memberOf fs.domain v).isSome = true

theorem Fit.tail {fs : FieldSpec} {t : Table} {v : Byte} {vals : List Byte} (h : Fit (fs :: t) (v :: vals)) :
    Fit t vals := fun j g w hg hw => h (j + 1) g w (by simpa using hg) (by simpa using hw)

theorem Fit.head {fs : FieldSpec} {t : Table} {v : Byte} {vals : List Byte} (h : Fit (fs :: t) (v :: vals)) :
    (memberOf fs.domain v).isSome = true := h 0 fs v (by simp) (by simp)

theorem Table.WF.tail {fs : FieldSpec} {t : Table} (h : Table.WF (fs :: t)) : Table.WF t :=
  ⟨(List.pairwise_cons.1 h.1).2, fun g hg => h.2 g (by simp [hg])⟩

/-- A mask disjoint from every mask of the table meets none of the packed byte. -/
theorem packedByte_and_disjoint {t : Table} {vals : List Byte} {m : Byte} (hw : Table.WF t) (hf : Fit t vals)
    (hd : ∀ fs ∈ t, m &&& fs.mask = 0) : packedByte t vals &&& m = 0 := by
  induction t generalizing vals with
  | nil => simp
  | cons fs t ih =>
    cases vals with
    | nil => simp [packedByte]
    | cons v vals =>
      rw [packedByte_cons, BitVec.and_comm, BitVec.and_or_distrib_left]
      have h1 := (insertField_inside (hw.2 fs (by simp)) hf.head).1
      have h2 : m &&& insertField fs v = 0 := by
        rw [← h1, BitVec.and_comm (insertField fs v), ← BitVec.and_assoc, hd fs (by simp)]
        simp
      rw [h2, BitVec.and_comm, ih (Table.WF.tail hw) hf.tail fun g hg => hd g (by simp [hg])]
      simp

/-- The packed byte under the mask of field `k` is that field's value in place. -/
theorem packedByte_and_mask {t : Table} {vals : List Byte} {k : Nat} {fs : FieldSpec} {v : Byte} (hw : Table.WF t)
    (hf : Fit t vals) (ht : t[k]? = some fs) (hv : vals[k]? = some v) :
    packedByte t vals &&& fs.mask = insertField fs v := by
  induction t generalizing vals k with
  | nil => simp at ht
  | cons g t ih =>
    cases vals with
    | nil => simp at hv
    | cons w vals =>
      have hp := List.pairwise_cons.1 hw.1
      have hg := insertField_inside (hw.2 g (by simp)) hf.head
      rw [packedByte_cons, BitVec.and_comm, BitVec.and_or_distrib_left]
      cases k with
      | zero =>
        simp only [List.getElem?_cons_zero, Option.some.injEq] at ht hv
        subst ht hv
        rw [BitVec.and_comm, hg.1, BitVec.and_comm g.mask,
          packedByte_and_disjoint (Table.WF.tail hw) hf.tail hp.1]
        simp
      | succ k =>
        simp only [List.getElem?_cons_succ] at ht hv
        have h0 : fs.mask &&& insertField g w = 0 := by
          rw [← hg.1, BitVec.and_comm (insertField g w), ← BitVec.and_assoc, BitVec.and_comm fs.mask,
            hp.1 fs (List.mem_of_getElem? ht)]
          simp
        rw [h0, BitVec.and_comm, ih (Table.WF.tail hw) hf.tail ht hv]
        simp

theorem extractField_packedByte {t : Table} {vals : List Byte} {k : Nat} {fs : FieldSpec} {v : Byte} (hw : Table.WF t)
    (hf : Fit t vals) (ht : t[k]? = some fs) (hv : vals[k]? = some v) :
    extractField (packedByte t vals) fs = v := by
  have h := insertField_inside (hw.2 fs (List.mem_of_getElem? ht)) (hf k fs v ht hv)
  rw [extractField, packedByte_and_mask hw hf ht hv, h.2]

theorem covered_cons (fs : FieldSpec) (t : Table) : covered (fs :: t) = fs.mask ||| covered t := rfl

/-- A packed byte has every reserved bit 0. -/
theorem packedByte_and_covered {t : Table} {vals : List Byte} (hw : Table.WF t) (hf : Fit t vals) :
    packedByte t vals &&& covered t = packedByte t vals := by
  induction t generalizing vals with
  | nil => simp
  | cons fs t ih =>
    cases vals with
    | nil => simp [packedByte]
    | cons v vals =>
      have h1 := (insertField_inside (hw.2 fs (by simp)) hf.head).1
      have h2 := ih (Table.WF.tail hw) hf.tail
      rw [packedByte_cons, covered_cons]
      apply BitVec.eq_of_getLsbD_eq
      intro i _
      have e1 := congrArg (fun b : Byte => b.getLsbD i) h1
      have e2 := congrArg (fun b : Byte => b.getLsbD i) h2
      simp only [BitVec.getLsbD_and, BitVec.getLsbD_or] at e1 e2 ⊢
      revert e1 e2
      generalize (insertField fs v).getLsbD i = x, fs.mask.getLsbD i = y, (packedByte t vals).getLsbD i = z,
        (covered t).getLsbD i = w
      revert x y z w
      decide

theorem packedByte_and_gap {t : Table} {vals : List Byte} (hw : Table.WF t) (hf : Fit t vals) :
    packedByte t vals &&& gap t = 0 := by
  rw [← packedByte_and_covered hw hf, gap, BitVec.and_assoc, BitVec.and_not_self]
  simp

/-- The mask of a field is covered. -/
theorem covered_and_mask {t : Table} {fs : FieldSpec} (h : fs ∈ t) : covered t &&& fs.mask = fs.mask := by
  induction t with
  | nil => simp at h
  | cons g t ih =>
    rw [covered_cons]
    apply BitVec.eq_of_getLsbD_eq
    intro i _
    simp only [BitVec.getLsbD_and, BitVec.getLsbD_or]
    rcases List.mem_cons.1 h with rfl | h
    · cases fs.mask.getLsbD i <;> simp
    · have e := congrArg (fun b : Byte => b.getLsbD i) (ih h)
      simp only [BitVec.getLsbD_and] at e
      revert e
      generalize (covered t).getLsbD i = x, fs.mask.getLsbD i = y, g.mask.getLsbD i = z
      revert x y z
      decide

/-- Extraction sees covered bits only. -/
theorem extractField_covered {t : Table} {fs : FieldSpec} (h : fs ∈ t) (raw : Byte) :
    extractField (raw &&& covered t) fs = extractField raw fs := by
  rw [extractField, BitVec.and_assoc, covered_and_mask h, extractField]

end Sys2Proof.Machine
end

