-- ==== Sys2Proof/Laws/Decode.lean ====
section
/-! SUPPORT. What the layout tables give: the argument bytes of each layout, that laying arguments out and reading them back
agree, which layout a request frame selects, and what a decoded frame must hold. -/

namespace Sys2Proof

/-! ### The tables (R274): a changed position is still a position of the arguments, and no two slots of a layout overlap -/

/-- The frame positions a slot takes. -/
def ArgSlot.positions : ArgSlot → List Nat
  | .byte p _ => [p.val]
  | .half p _ => [p.val, p.val + 1]

theorem slots_are_arguments (l : ReqLayout) : ∀ sl ∈ l.slots, ∀ p ∈ sl.positions, 1 ≤ p ∧ p ≤ 6 := by
  cases l <;> decide

theorem slots_do_not_overlap (l : ReqLayout) : (l.slots.flatMap ArgSlot.positions).Nodup := by cases l <;> decide

/-! ### The argument bytes of each layout -/

section
variable (a : ReqArgs)

@[simp] theorem layoutArgs_getstate : layoutArgs .getstate a = .ok fillArgs := rfl
@[simp] theorem layoutArgs_addrdef : layoutArgs .addrdef a = .ok fillArgs := rfl
@[simp] theorem layoutArgs_rdflow : layoutArgs .rdflow a = .ok fillArgs := rfl

@[simp] theorem layoutArgs_regime :
    layoutArgs .regime a = .ok { fillArgs with a1 := a.typemode, a3 := a.measuringmode } := rfl

@[simp] theorem layoutArgs_readdr : layoutArgs .readdr a = .ok { fillArgs with a2 := a.newAddress } := rfl
@[simp] theorem layoutArgs_recov : layoutArgs .recov a = .ok { fillArgs with a1 := a.mode } := rfl
@[simp] theorem layoutArgs_plug : layoutArgs .plug a = .ok { fillArgs with a2 := a.mode } := rfl

@[simp] theorem layoutArgs_zeroset :
    layoutArgs .zeroset a = .ok { fillArgs with a3 := 0x01, a4 := hiByte a.shift, a5 := loByte a.shift } := rfl

@[simp] theorem layoutArgs_zeroget : layoutArgs .zeroget a = .ok { fillArgs with a3 := 0x00 } := rfl

@[simp] theorem layoutArgs_setflow :
    layoutArgs .setflow a = .ok { fillArgs with a2 := hiByte a.flowRaw, a3 := loByte a.flowRaw } := rfl

theorem layoutArgs_baud_ok {c : Byte} (h : ratecode a.rate = some c) :
    layoutArgs .baud a = .ok { fillArgs with a2 := c } := by
  simp only [layoutArgs, ReqLayout.slots, writeSlots, ReqArgs.byte, h]
  rfl

theorem layoutArgs_baud_error (h : ratecode a.rate = none) : layoutArgs .baud a = .error a.rate := by
  simp only [layoutArgs, ReqLayout.slots, writeSlots, ReqArgs.byte, h]

end

/-- The only layout that can fail is BAUD, at a rate without a code (R150, R164). -/
theorem layoutArgs_cases (l : ReqLayout) (a : ReqArgs) :
    (∃ g, layoutArgs l a = .ok g) ∨ (l = .baud ∧ ratecode a.rate = none ∧ layoutArgs l a = .error a.rate) := by
  cases l
  case baud =>
    cases h : ratecode a.rate with
    | some c => exact .inl ⟨_, layoutArgs_baud_ok a h⟩
    | none => exact .inr ⟨rfl, rfl, layoutArgs_baud_error a h⟩
  all_goals exact .inl ⟨_, rfl⟩

/-! ### Selecting a layout -/

/-- The bytes a layout lays out select it, under its own code (R76, R77). -/
theorem selectLayout_of_layoutArgs {l : ReqLayout} {a : ReqArgs} {g : Args} (h : layoutArgs l a = .ok g) :
    selectLayout l.code g = .ok l := by
  cases l
  case baud =>
    cases hr : ratecode a.rate with
    | none => rw [layoutArgs_baud_error a hr] at h; cases h
    | some c => rw [layoutArgs_baud_ok a hr] at h; cases h; rfl
  all_goals cases h; rfl

/-- A selected layout has the frame's command code. -/
theorem selectLayout_code {cmd : Byte} {g : Args} {l : ReqLayout} (h : selectLayout cmd g = .ok l) : cmd = l.code := by
  unfold selectLayout at h
  split at h
  · rename_i l' hl
    cases h
    have hs := List.find?_some hl
    simp only [ReqLayout.selectedBy, Bool.and_eq_true, beq_iff_eq] at hs
    exact hs.1.symm
  · split at h <;> cases h

/-! ### Reading the arguments back -/

/-- Laid-out arguments decode to the instruction of the layout (R81). -/
theorem decodeFrameArgs_of_layoutArgs {l : ReqLayout} {a : ReqArgs} {g : Args} (h : layoutArgs l a = .ok g) :
    decodeFrameArgs l g a.addr = .instr (decodeReqLayout l a) := by
  cases l
  case baud =>
    cases hr : ratecode a.rate with
    | none => rw [layoutArgs_baud_error a hr] at h; cases h
    | some c =>
      rw [layoutArgs_baud_ok a hr] at h
      cases h
      have hc : rateOfCode (frameRead (argsFrame { fillArgs with a2 := c }) 2) = some a.rate := rateOfCode_ratecode hr
      have hs : layoutArgs .baud { addr := a.addr, rate := a.rate } = .ok { fillArgs with a2 := c } :=
        layoutArgs_baud_ok _ hr
      simp only [decodeFrameArgs, ReqLayout.slots, readSlots, ReqArgs.withByte, hc, hs, decodeReqLayout, if_true]
  case zeroset =>
    rw [layoutArgs_zeroset] at h
    cases h
    simp [decodeFrameArgs, ReqLayout.slots, readSlots, ReqArgs.withByte, ReqArgs.withHalf, decodeReqLayout,
      frameRead16, argsFrame, frameRead, be16_hi_lo]
  case setflow =>
    rw [layoutArgs_setflow] at h
    cases h
    simp [decodeFrameArgs, ReqLayout.slots, readSlots, ReqArgs.withHalf, decodeReqLayout, frameRead16, argsFrame,
      frameRead, be16_hi_lo]
  all_goals
    cases h
    first | rfl | exact if_pos rfl

/-- A withdrawn argument keeps the address. -/
theorem readSlots_addr {g : Args} {sl : List ArgSlot} {a a' : ReqArgs} (h : readSlots g sl a = .ok a') :
    a'.addr = a.addr := by
  induction sl generalizing a with
  | nil => cases h; rfl
  | cons x rest ih =>
    cases x with
    | byte p v =>
      unfold readSlots at h
      split at h
      · cases h
      · rename_i b hb
        rw [ih h]
        cases v <;> simp only [ReqArgs.withByte] at hb
        case rateCode => split at hb <;> cases hb; rfl
        all_goals cases hb; rfl
    | half p v =>
      rw [ih h]
      cases v <;> rfl

/-- A decoded frame holds exactly the bytes its layout lays out for the arguments read (R80). -/
theorem decodeFrameArgs_inv {l : ReqLayout} {g : Args} {addr : Byte} {i : Instr}
    (h : decodeFrameArgs l g addr = .instr i) :
    ∃ a : ReqArgs, a.addr = addr ∧ layoutArgs l a = .ok g ∧ i = decodeReqLayout l a := by
  unfold decodeFrameArgs at h
  split at h
  · cases h
  · rename_i a ha
    split at h
    · cases h
    · rename_i g' hg
      split at h
      · rename_i e
        subst e
        exact ⟨a, readSlots_addr ha, hg, (Decoded.instr.inj h).symm⟩
      · cases h

/-! ### The encoder -/

/-- The instruction of a layout is encoded by that layout. -/
theorem encodeFrame_decodeReqLayout (l : ReqLayout) (a : ReqArgs) :
    encodeFrame (decodeReqLayout l a) = layoutEncoding l a := by cases l <;> rfl

/-- The instruction of a layout, written as a layout. -/
theorem decodeReqLayout_layout {i : Instr} {l : ReqLayout} {a : ReqArgs} (h : i.layout = some (l, a)) :
    decodeReqLayout l a = i := by
  cases i <;> cases h <;> rfl

/-- What the encoder gives. -/
theorem layoutEncoding_ok {l : ReqLayout} {a : ReqArgs} {g : Args} (h : layoutArgs l a = .ok g) :
    layoutEncoding l a = some (sealFrame { cmd := l.code, args := g, addr := a.addr }) := by
  simp [layoutEncoding, h]

/-- An encoded layout decodes to its instruction. -/
theorem decodeReqFrame_of_layoutArgs {l : ReqLayout} {a : ReqArgs} {g : Args} (h : layoutArgs l a = .ok g) :
    decodeReqFrame (sealFrame { cmd := l.code, args := g, addr := a.addr }) = .instr (decodeReqLayout l a) := by
  simp [decodeReqFrame, selectLayout_of_layoutArgs h, decodeFrameArgs_of_layoutArgs h]

end Sys2Proof
end

