-- ==== Sys2Proof/Laws/State.lean ====
section
/-! SUPPORT. One lemma per field per named update of the state, each true by rfl, so that no proof unfolds a record update. -/

namespace Sys2Proof.Machine

variable (s : State) (r : Response) (e : UnitError) (q : Request) (ph : Phase) (c : CallResult)

@[simp] theorem answer_config : (s.answer r).config = s.config := rfl
@[simp] theorem answer_request : (s.answer r).request = none := rfl
@[simp] theorem answer_response : (s.answer r).response = some r := rfl
@[simp] theorem answer_host : (s.answer r).host = s.host := rfl

@[simp] theorem raise_config : (s.raise e).config = s.config := rfl
@[simp] theorem raise_request : (s.raise e).request = none := rfl
@[simp] theorem raise_response : (s.raise e).response = some (.raised e) := rfl
@[simp] theorem raise_host : (s.raise e).host = s.host := rfl

@[simp] theorem raised_status : (Response.raised e).status = e.status := rfl
@[simp] theorem raised_info : (Response.raised e).info = some e := rfl
@[simp] theorem raised_fields : (Response.raised e).fields = none := rfl
@[simp] theorem raised_byte : (Response.raised e).byte = none := rfl
@[simp] theorem raised_writeNeeded : (Response.raised e).writeNeeded = none := rfl
@[simp] theorem raised_sum : (Response.raised e).sum = none := rfl
@[simp] theorem raised_frame : (Response.raised e).frame = none := rfl
@[simp] theorem raised_ok : (Response.raised e).ok = none := rfl
@[simp] theorem raised_flow : (Response.raised e).flow = none := rfl
@[simp] theorem raised_setpoint : (Response.raised e).setpoint = none := rfl

@[simp] theorem ask_config : (s.ask q ph).config = s.config := rfl
@[simp] theorem ask_request : (s.ask q ph).request = some q := rfl
@[simp] theorem ask_response : (s.ask q ph).response = none := rfl
@[simp] theorem ask_phase : (s.ask q ph).host.phase = ph := rfl
@[simp] theorem ask_params : (s.ask q ph).host.params = s.host.params := rfl
@[simp] theorem ask_address : (s.ask q ph).host.address = s.host.address := rfl
@[simp] theorem ask_serial : (s.ask q ph).host.serial = s.host.serial := rfl
@[simp] theorem ask_calls : (s.ask q ph).host.calls = s.host.calls := rfl
@[simp] theorem ask_inbox : (s.ask q ph).host.inbox = s.host.inbox := rfl
@[simp] theorem ask_log : (s.ask q ph).host.log = s.host.log := rfl
@[simp] theorem ask_result : (s.ask q ph).host.result = s.host.result := rfl

@[simp] theorem await_config : (s.await ph).config = s.config := rfl
@[simp] theorem await_request : (s.await ph).request = s.request := rfl
@[simp] theorem await_response : (s.await ph).response = none := rfl
@[simp] theorem await_phase : (s.await ph).host.phase = ph := rfl
@[simp] theorem await_params : (s.await ph).host.params = s.host.params := rfl
@[simp] theorem await_address : (s.await ph).host.address = s.host.address := rfl
@[simp] theorem await_serial : (s.await ph).host.serial = s.host.serial := rfl
@[simp] theorem await_calls : (s.await ph).host.calls = s.host.calls := rfl
@[simp] theorem await_inbox : (s.await ph).host.inbox = s.host.inbox := rfl
@[simp] theorem await_log : (s.await ph).host.log = s.host.log := rfl
@[simp] theorem await_result : (s.await ph).host.result = s.host.result := rfl

@[simp] theorem finish_config : (s.finish c).config = s.config := rfl
@[simp] theorem finish_request : (s.finish c).request = s.request := rfl
@[simp] theorem finish_response : (s.finish c).response = none := rfl
@[simp] theorem finish_phase : (s.finish c).host.phase = .idle := rfl
@[simp] theorem finish_params : (s.finish c).host.params = s.host.params := rfl
@[simp] theorem finish_address : (s.finish c).host.address = s.host.address := rfl
@[simp] theorem finish_serial : (s.finish c).host.serial = s.host.serial := rfl
@[simp] theorem finish_calls : (s.finish c).host.calls = s.host.calls := rfl
@[simp] theorem finish_inbox : (s.finish c).host.inbox = s.host.inbox := rfl
@[simp] theorem finish_log : (s.finish c).host.log = s.host.log := rfl
@[simp] theorem finish_result : (s.finish c).host.result = some c := rfl

variable (a : Byte) (n : Half)

@[simp] theorem capture_config : (capture a n s).config = s.config := rfl
@[simp] theorem capture_request : (capture a n s).request = s.request := rfl
@[simp] theorem capture_response : (capture a n s).response = s.response := rfl
@[simp] theorem capture_params : (capture a n s).host.params = s.host.params := rfl
@[simp] theorem capture_address : (capture a n s).host.address = some a := rfl
@[simp] theorem capture_serial : (capture a n s).host.serial = some n := rfl
@[simp] theorem capture_phase : (capture a n s).host.phase = s.host.phase := rfl
@[simp] theorem capture_log : (capture a n s).host.log = s.host.log := rfl

@[simp] theorem recache_config : (recache a s).config = s.config := by unfold recache; split <;> rfl
@[simp] theorem recache_request : (recache a s).request = s.request := by unfold recache; split <;> rfl
@[simp] theorem recache_params : (recache a s).host.params = s.host.params := by unfold recache; split <;> rfl
@[simp] theorem recache_serial : (recache a s).host.serial = s.host.serial := by unfold recache; split <;> rfl
@[simp] theorem recache_log : (recache a s).host.log = s.host.log := by unfold recache; split <;> rfl

variable (calls : List Call) (inbox : List TransportReply) (tc : TransportCall)

@[simp] theorem taken_config : (s.taken calls).config = s.config := rfl
@[simp] theorem taken_request : (s.taken calls).request = s.request := rfl
@[simp] theorem taken_response : (s.taken calls).response = s.response := rfl
@[simp] theorem taken_params : (s.taken calls).host.params = s.host.params := rfl
@[simp] theorem taken_address : (s.taken calls).host.address = s.host.address := rfl
@[simp] theorem taken_serial : (s.taken calls).host.serial = s.host.serial := rfl
@[simp] theorem taken_phase : (s.taken calls).host.phase = s.host.phase := rfl
@[simp] theorem taken_calls : (s.taken calls).host.calls = calls := rfl
@[simp] theorem taken_inbox : (s.taken calls).host.inbox = s.host.inbox := rfl
@[simp] theorem taken_log : (s.taken calls).host.log = s.host.log := rfl
@[simp] theorem taken_result : (s.taken calls).host.result = s.host.result := rfl

@[simp] theorem called_config : (s.called inbox tc).config = s.config := rfl
@[simp] theorem called_request : (s.called inbox tc).request = s.request := rfl
@[simp] theorem called_response : (s.called inbox tc).response = s.response := rfl
@[simp] theorem called_params : (s.called inbox tc).host.params = s.host.params := rfl
@[simp] theorem called_address : (s.called inbox tc).host.address = s.host.address := rfl
@[simp] theorem called_serial : (s.called inbox tc).host.serial = s.host.serial := rfl
@[simp] theorem called_phase : (s.called inbox tc).host.phase = s.host.phase := rfl
@[simp] theorem called_calls : (s.called inbox tc).host.calls = s.host.calls := rfl
@[simp] theorem called_inbox : (s.called inbox tc).host.inbox = inbox := rfl
@[simp] theorem called_log : (s.called inbox tc).host.log = s.host.log ++ [tc] := rfl
@[simp] theorem called_result : (s.called inbox tc).host.result = s.host.result := rfl

variable (nbits w : Nat)

@[simp] theorem withFetchWord_config : (s.withFetchWord nbits w).config = s.config := rfl
@[simp] theorem withFetchWord_request : (s.withFetchWord nbits w).request = some (requestOfWord nbits w) := rfl
@[simp] theorem withFetchWord_response : (s.withFetchWord nbits w).response = s.response := rfl
@[simp] theorem withFetchWord_host : (s.withFetchWord nbits w).host = s.host := rfl

end Sys2Proof.Machine
end

