-- ==== Sys2Proof/Laws/Exec.lean ====
section
/-! SUPPORT. What exec can do, said once: it answers, and its response is a function of the instruction and the configuration
alone. The lemmas of VALID and of a response made from a result. -/

namespace Sys2Proof.Machine

/-- The response of an instruction under a configuration. -/
def responseOf (cfg : UnitConfig) : Instr → Response
  | .dec1 r => .ofResult (decodeFirst cfg r) fun fs => { fields := some fs }
  | .dec2 r => .ofResult (decodeSecond cfg r) fun fs => { fields := some fs }
  | .decw r1 r2 => .ofResult (decodeWord cfg r1 r2) fun fs => { fields := some fs }
  | .enc1 seq => .ofResult (encodeFirst cfg seq) fun b => { byte := some b }
  | .upd1 r idx val => .ofResult (updateFirst cfg r idx val) fun bw => { byte := some bw.1, writeNeeded := some bw.2 }
  | .csum p => { sum := some (checksum p) }
  | .build cmd args addr => { frame := some (buildFrame cmd args addr) }
  | .valid f => { Response.ofResult (validate f) (fun _ => {}) with ok := some (checksumOk f) }
  | .getstate addr => .ofResult (layoutFrame .getstate { addr := addr }) fun f => { frame := some f }
  | .addrdef addr => .ofResult (layoutFrame .addrdef { addr := addr }) fun f => { frame := some f }
  | .rdflow addr => .ofResult (layoutFrame .rdflow { addr := addr }) fun f => { frame := some f }
  | .baud rate addr => .ofResult (layoutFrame .baud { rate := rate, addr := addr }) fun f => { frame := some f }
  | .regime t m addr =>
    .ofResult (layoutFrame .regime { typemode := t, measuringmode := m, addr := addr }) fun f => { frame := some f }
  | .readdr n addr => .ofResult (layoutFrame .readdr { newAddress := n, addr := addr }) fun f => { frame := some f }
  | .recov m addr => .ofResult (layoutFrame .recov { mode := m, addr := addr }) fun f => { frame := some f }
  | .plug m addr => .ofResult (layoutFrame .plug { mode := m, addr := addr }) fun f => { frame := some f }
  | .zeroset v addr => .ofResult (layoutFrame .zeroset { shift := v, addr := addr }) fun f => { frame := some f }
  | .zeroget addr => .ofResult (layoutFrame .zeroget { addr := addr }) fun f => { frame := some f }
  | .setflow v addr => .ofResult (layoutFrame .setflow { flowRaw := v, addr := addr }) fun f => { frame := some f }
  | .getstateR r => .ofResult (validate r) fun _ =>
      { raw1 := some (frameRead r cfg.stateRspOff1), raw2 := some (frameRead r cfg.stateRspOff2) }
  | .addrdefR r => .ofResult (validate r) fun _ =>
      { address := some (frameRead r rspAddressPos), serial := some (frameRead16 r rspSerialPos) }
  | .rdflowR r => .ofResult (validate r) fun _ =>
      { flow := some (s16 (frameRead16 r rspFlowPos)), setpoint := some (s16 (frameRead16 r rspSetpointPos)) }
  | .zerogetR r => .ofResult (validate r) fun _ => { shift := some (frameRead16 r rspShiftPos) }
  | .ackR r => .ofResult (validate r) fun _ => {}

/-- exec answers, always, and changes the two records only. -/
theorem exec_eq_answer (i : Instr) (s : State) : exec i s = .next (s.answer (responseOf s.config i)) := by
  cases i <;> rfl

/-- The one next state of an instruction. -/
theorem exec_next {i : Instr} {s t : State} (h : exec i s = .next t) : t = s.answer (responseOf s.config i) := by
  rw [exec_eq_answer] at h
  exact (Host.Outcome.next.inj h).symm

@[simp] theorem ofResult_ok {α : Type} (v : α) (fill : α → Response) : Response.ofResult (.ok v) fill = fill v := rfl

@[simp] theorem ofResult_error {α : Type} (e : UnitError) (fill : α → Response) :
    Response.ofResult (.error e) fill = .raised e := rfl

theorem checksumOk_iff (f : Frame) : checksumOk f = true ↔ checksum f.payload = trailer f := by
  simp [checksumOk]

theorem validate_of_ok {f : Frame} (h : checksumOk f = true) : validate f = .ok () := by simp [validate, h]

theorem validate_of_mismatch {f : Frame} (h : checksumOk f = false) :
    validate f = .error (.checksum (checksum f.payload) (trailer f)) := by simp [validate, h]

/-- VALID's response, in one piece. -/
theorem responseOf_valid (cfg : UnitConfig) (f : Frame) :
    responseOf cfg (.valid f) =
      if checksumOk f then { ok := some true }
      else
        { status := .checksumError
          info := some (.checksum (checksum f.payload) (trailer f))
          ok := some false } := by
  cases h : checksumOk f <;> simp [responseOf, validate, h, Response.raised, UnitError.status]

theorem checksumOk_sealFrame (p : Payload) : checksumOk (sealFrame p) = true := by simp [checksumOk]

/-- A layout's frame is its argument bytes, sealed (R150). -/
theorem layoutFrame_ok {l : ReqLayout} {a : ReqArgs} {g : Args} (h : layoutArgs l a = .ok g) :
    layoutFrame l a = .ok (sealFrame { cmd := l.code, args := g, addr := a.addr }) := by
  simp [layoutFrame, h, buildFrame]

/-- A request layout answers its frame, or the error of its rate (R150). -/
theorem responseOf_layout (cfg : UnitConfig) (l : ReqLayout) (a : ReqArgs) :
    responseOf cfg (decodeReqLayout l a) = .ofResult (layoutFrame l a) fun f => { frame := some f } := by
  cases l <;> rfl

/-- At a rate without a code BAUD raises (R164). -/
theorem responseOf_baud_error (cfg : UnitConfig) {rate : Int} {addr : Byte} (h : ratecode rate = none) :
    responseOf cfg (.baud rate addr) = .raised (.validation rate) := by
  simp only [responseOf, layoutFrame, layoutArgs_baud_error { rate := rate, addr := addr } h, ofResult_error]

/-- The one way a layout fails (R164). -/
theorem layoutFrame_error {l : ReqLayout} {a : ReqArgs} {e : UnitError} (h : layoutFrame l a = .error e) :
    l = .baud ∧ ratecode a.rate = none ∧ e = .validation a.rate := by
  obtain ⟨g, hg⟩ | ⟨hl, hr, hg⟩ := layoutArgs_cases l a
  · rw [layoutFrame_ok hg] at h
    cases h
  · simp only [layoutFrame, hg] at h
    cases h
    exact ⟨hl, hr, rfl⟩

/-- The layout's frame is what the encoder gives (R85). -/
theorem layoutFrame_encoding {l : ReqLayout} {a : ReqArgs} {f : Frame} (h : layoutFrame l a = .ok f) :
    layoutEncoding l a = some f := by
  obtain ⟨g, hg⟩ | ⟨-, -, hg⟩ := layoutArgs_cases l a
  · rw [layoutFrame_ok hg] at h
    cases h
    exact layoutEncoding_ok hg
  · simp [layoutFrame, hg] at h

/-- Every frame a layout builds validates. -/
theorem checksumOk_layoutFrame {l : ReqLayout} {a : ReqArgs} {f : Frame} (h : layoutFrame l a = .ok f) :
    checksumOk f = true := by
  obtain ⟨g, hg⟩ | ⟨-, -, hg⟩ := layoutArgs_cases l a
  · rw [layoutFrame_ok hg] at h
    cases h
    exact checksumOk_sealFrame _
  · simp [layoutFrame, hg] at h

/-- A raised response is well formed. -/
theorem raised_wellFormed (e : UnitError) : (Response.raised e).WellFormed := by
  simp [Response.WellFormed, Response.raised, Response.Bare]

/-- A response made from a result is well formed when its results are. -/
theorem ofResult_wellFormed {α : Type} (r : Result α) (fill : α → Response)
    (h : ∀ v, r = .ok v → (fill v).WellFormed) : (Response.ofResult r fill).WellFormed := by
  cases r with
  | ok v => exact h v rfl
  | error e => exact raised_wellFormed e

end Sys2Proof.Machine
end

