-- ==== Sys2Proof/Laws/PerInstr.lean ====
section
/-! SUPPORT. One statement per instruction, about its encoding: a well-formed instruction is encoded, and its encoding carries
what selects its row of spec/opcode_table.json (R71, R75, R76, R77, R85). -/

namespace Sys2Proof.Laws.EncodeMatchesRow

/-- What selects a row of the opcode table: the selector of a UNITREQ row; bits 79 to 72, and for code 35 bits 55 to 48, of a
FRAME10_REQ row; the `selected_by` of a FRAME10_RSP row. -/
inductive Row where
  | unit (op : Nat)
  | request (cmd : Nat) (b3 : Option Nat)
  | response (selectedBy : List ReqLayout)

/-- The rows, written from the table. -/
def row : Instr → Row
  | .dec1 _ => .unit 0
  | .dec2 _ => .unit 1
  | .decw _ _ => .unit 2
  | .enc1 _ => .unit 3
  | .upd1 _ _ _ => .unit 4
  | .csum _ => .unit 5
  | .build _ _ _ => .unit 6
  | .valid _ => .unit 7
  | .getstate _ => .request 0x01 none
  | .addrdef _ => .request 0x02 none
  | .rdflow _ => .request 0x11 none
  | .baud _ _ => .request 0x16 none
  | .regime _ _ _ => .request 0x18 none
  | .readdr _ _ => .request 0x1B none
  | .recov _ _ => .request 0x1F none
  | .plug _ _ => .request 0x20 none
  | .zeroset _ _ => .request 0x23 (some 1)
  | .zeroget _ => .request 0x23 (some 0)
  | .setflow _ _ => .request 0x25 none
  | .getstateR _ => .response [.getstate]
  | .addrdefR _ => .response [.addrdef]
  | .rdflowR _ => .response [.rdflow]
  | .zerogetR _ => .response [.zeroget]
  | .ackR _ => .response [.regime, .setflow, .recov, .plug, .readdr, .baud, .zeroset]

/-- The request is one the row selects. -/
def Matches : Row → Request → Prop
  | .unit op, .unitOp o _ => o.toNat = op
  | .request cmd b3, .reqFrame f =>
    wordOfFrame f / 2 ^ 72 = cmd ∧ ∀ b, b3 = some b → wordOfFrame f / 2 ^ 48 % 256 = b
  | .response sel, .rspLayout sent _ => sent ∈ sel
  | .unit _, .reqLayout _ _ | .unit _, .reqFrame _ | .unit _, .rspLayout _ _ => False
  | .request _ _, .unitOp _ _ | .request _ _, .reqLayout _ _ | .request _ _, .rspLayout _ _ => False
  | .response _, .unitOp _ _ | .response _, .reqLayout _ _ | .response _, .reqFrame _ => False

/-- Encoded, if well-formed, and by its own row. -/
def Statement (i : Instr) : Prop := i.wf = true → ∃ q, encode i = some q ∧ Matches (row i) q

/-- Bits 79 to 72 of a frame word are its byte 0. -/
theorem word_byte0 (f : Frame) : wordOfFrame f / 2 ^ 72 = f.payload.cmd.toNat := by
  have := f.payload.args.a1.isLt; have := f.payload.args.a2.isLt; have := f.payload.args.a3.isLt
  have := f.payload.args.a4.isLt; have := f.payload.args.a5.isLt; have := f.payload.args.a6.isLt
  have := f.payload.addr.isLt; have := f.ckHi.isLt; have := f.ckLo.isLt
  simp only [wordOfFrame, List.foldl_cons, List.foldl_nil]
  omega

/-- Bits 55 to 48 are its byte 3. -/
theorem word_byte3 (f : Frame) : wordOfFrame f / 2 ^ 48 % 256 = f.payload.args.a3.toNat := by
  have := f.payload.args.a3.isLt; have := f.payload.args.a4.isLt; have := f.payload.args.a5.isLt
  have := f.payload.args.a6.isLt; have := f.payload.addr.isLt; have := f.ckHi.isLt; have := f.ckLo.isLt
  simp only [wordOfFrame, List.foldl_cons, List.foldl_nil]
  omega

/-- A request layout is encoded, by a frame that carries its code, and its zero-adjust flag where it has one. -/
theorem of_layout {i : Instr} {l : ReqLayout} {a : ReqArgs} {g : Args} {cmd : Nat} {b3 : Option Nat}
    (he : encode i = (layoutEncoding l a).map .reqFrame) (hr : row i = .request cmd b3)
    (hg : layoutArgs l a = .ok g) (hc : l.code.toNat = cmd) (hb : ∀ b, b3 = some b → g.a3.toNat = b) :
    ∃ q, encode i = some q ∧ Matches (row i) q := by
  refine ⟨_, by rw [he, layoutEncoding_ok hg]; rfl, ?_⟩
  rw [hr]
  exact ⟨by rw [word_byte0]; exact hc, fun b h => by rw [word_byte3]; exact hb b h⟩

theorem dec1 (r : StatusValue) : Statement (.dec1 r) := fun _ => ⟨_, rfl, rfl⟩
theorem dec2 (r : StatusValue) : Statement (.dec2 r) := fun _ => ⟨_, rfl, rfl⟩
theorem decw (r1 r2 : StatusValue) : Statement (.decw r1 r2) := fun _ => ⟨_, rfl, rfl⟩
theorem enc1 (seq : List FieldValue) : Statement (.enc1 seq) := fun _ => ⟨_, rfl, rfl⟩
theorem upd1 (r : StatusValue) (idx : Nat) (val : Byte) : Statement (.upd1 r idx val) := fun _ => ⟨_, rfl, rfl⟩
theorem csum (p : Payload) : Statement (.csum p) := fun _ => ⟨_, rfl, rfl⟩
theorem build (cmd : Byte) (args : Args) (addr : Byte) : Statement (.build cmd args addr) := fun _ => ⟨_, rfl, rfl⟩
theorem valid (f : Frame) : Statement (.valid f) := fun _ => ⟨_, rfl, rfl⟩
theorem getstate (addr : Byte) : Statement (.getstate addr) := fun _ => of_layout (l := .getstate) rfl rfl rfl rfl nofun
theorem addrdef (addr : Byte) : Statement (.addrdef addr) := fun _ => of_layout (l := .addrdef) rfl rfl rfl rfl nofun
theorem rdflow (addr : Byte) : Statement (.rdflow addr) := fun _ => of_layout (l := .rdflow) rfl rfl rfl rfl nofun

theorem baud (rate : Int) (addr : Byte) : Statement (.baud rate addr) := by
  intro h
  obtain ⟨c, hc⟩ := Option.isSome_iff_exists.mp h
  exact of_layout (l := .baud) rfl rfl (layoutArgs_baud_ok _ hc) rfl nofun

theorem regime (t m addr : Byte) : Statement (.regime t m addr) := fun _ => of_layout (l := .regime) rfl rfl rfl rfl nofun
theorem readdr (n addr : Byte) : Statement (.readdr n addr) := fun _ => of_layout (l := .readdr) rfl rfl rfl rfl nofun
theorem recov (m addr : Byte) : Statement (.recov m addr) := fun _ => of_layout (l := .recov) rfl rfl rfl rfl nofun
theorem plug (m addr : Byte) : Statement (.plug m addr) := fun _ => of_layout (l := .plug) rfl rfl rfl rfl nofun

theorem zeroset (v : Half) (addr : Byte) : Statement (.zeroset v addr) := fun _ =>
  of_layout (l := .zeroset) rfl rfl rfl rfl fun _ h => Option.some.inj h

theorem zeroget (addr : Byte) : Statement (.zeroget addr) := fun _ =>
  of_layout (l := .zeroget) rfl rfl rfl rfl fun _ h => Option.some.inj h

theorem setflow (v : Half) (addr : Byte) : Statement (.setflow v addr) := fun _ => of_layout (l := .setflow) rfl rfl rfl rfl nofun
theorem getstateR (r : Frame) : Statement (.getstateR r) := fun _ => ⟨_, rfl, by simp [Matches, row]⟩
theorem addrdefR (r : Frame) : Statement (.addrdefR r) := fun _ => ⟨_, rfl, by simp [Matches, row]⟩
theorem rdflowR (r : Frame) : Statement (.rdflowR r) := fun _ => ⟨_, rfl, by simp [Matches, row]⟩
theorem zerogetR (r : Frame) : Statement (.zerogetR r) := fun _ => ⟨_, rfl, by simp [Matches, row]⟩
theorem ackR (r : Frame) : Statement (.ackR r) := fun _ => ⟨_, rfl, by simp [Matches, row]⟩

end Sys2Proof.Laws.EncodeMatchesRow
end

