-- ==== Sys2Proof/Laws/Run.lean ====
section
/-! SUPPORT. A run of a machine, one step at a time. -/

namespace Sys2Proof.Machine

theorem run_next (M : Host.Core) {n : Nat} {s t : M.State} (h : M.step s = .next t) :
    M.run (n + 1) s = M.run n t := by rw [Host.Core.run, h]

theorem run_fault (M : Host.Core) {n : Nat} {s : M.State} {e : M.Fault} (h : M.step s = .fault e) :
    M.run (n + 1) s = .fault e := by rw [Host.Core.run, h]

theorem run_refused (M : Host.Core) {n : Nat} {s : M.State} {e : M.Refusal} (h : M.step s = .refused e) :
    M.run (n + 1) s = .refused e := by rw [Host.Core.run, h]

end Sys2Proof.Machine
end

