-- ==== Sys2Proof/Laws/Session.lean ====
section
/-! SUPPORT. What a step of the host can do, said once. Between two transport calls it makes one move: it finishes, asks the
unit, or waits. The inversion lemmas name, for each phase, the moves that are possible. -/

namespace Sys2Proof.Machine

/-- One move of the host that puts no frame on the line. -/
inductive Moved (s : State) : State → Prop where
  | finish (r : CallResult) : Moved s (s.finish r)
  | ask (q : Request) (ph : Phase) (h : ph.frame = none) : Moved s (s.ask q ph)
  | await (ph : Phase) (h : ph.frame = none) : Moved s (s.await ph)

/-- Every next state of the outcome is one move away. -/
def Outcome.Moves (s : State) (o : HostOutcome) : Prop := ∀ t, o = .next t → Moved s t

theorem Outcome.moves_next {s t : State} (h : Moved s t) : Outcome.Moves s (.next t) :=
  fun _ e => Host.Outcome.next.inj e ▸ h

theorem Outcome.moves_fault {s : State} (e : Fault) : Outcome.Moves s (.fault e) := fun _ h => by cases h

theorem Outcome.moves_refused {s : State} (e : Refusal) : Outcome.Moves s (.refused e) := fun _ h => by cases h

/-! ### What a move leaves alone -/

theorem Moved.config {s t : State} (h : Moved s t) : t.config = s.config := by cases h <;> rfl
theorem Moved.params {s t : State} (h : Moved s t) : t.host.params = s.host.params := by cases h <;> rfl
theorem Moved.address {s t : State} (h : Moved s t) : t.host.address = s.host.address := by cases h <;> rfl
theorem Moved.serial {s t : State} (h : Moved s t) : t.host.serial = s.host.serial := by cases h <;> rfl
theorem Moved.log {s t : State} (h : Moved s t) : t.host.log = s.host.log := by cases h <;> rfl
theorem Moved.inbox {s t : State} (h : Moved s t) : t.host.inbox = s.host.inbox := by cases h <;> rfl
theorem Moved.response {s t : State} (h : Moved s t) : t.response = none := by cases h <;> rfl

theorem Moved.no_frame {s t : State} (h : Moved s t) : t.host.phase.frame = none := by
  cases h with
  | finish r => rfl
  | ask q ph h => exact h
  | await ph h => exact h

/-! ### The helpers -/

theorem beginExchange_moved (c : Call) (leg : Leg) (s : State) : Moved s (beginExchange c leg s) := by
  unfold beginExchange
  simp only
  split
  · exact .finish _
  · exact .ask _ _ rfl

theorem afterValve_moved (flow : Rat) (s : State) : Moved s (afterValve flow s) := by
  unfold afterValve
  split
  · exact .finish _
  · split
    · exact .finish _
    · split
      · exact beginExchange_moved _ _ s
      · exact .await _ rfl

theorem writeHalf_moved (flow : Rat) (b : Byte) (needed : Bool) (s : State) : Moved s (writeHalf flow b needed s) := by
  unfold writeHalf
  split
  · split
    · exact beginExchange_moved _ _ s
    · exact .await _ rfl
  · exact afterValve_moved _ s

theorem askUpdate_moved (flow : Rat) (v : StatusValue) (s : State) : Moved s (askUpdate flow v s) := .ask _ _ rfl

theorem afterRegWrite_moved (c : Call) (leg : Leg) (s : State) : Moved s (afterRegWrite c leg s) := by
  unfold afterRegWrite
  split
  · exact afterValve_moved _ s
  · exact .finish _

theorem launch_moves (c : Call) (s : State) : Outcome.Moves s (launch c s) := by
  unfold launch
  split
  · exact Outcome.moves_next (beginExchange_moved _ _ s)
  · split
    · exact Outcome.moves_refused _
    · exact Outcome.moves_next (.await _ rfl)

theorem startCall_moves (c : Call) (s : State) : Outcome.Moves s (startCall c s) := by
  unfold startCall
  split
  · exact Outcome.moves_next (.finish _)
  · split
    · exact Outcome.moves_next (.finish _)
    · split
      · exact Outcome.moves_refused _
      · exact launch_moves _ s

theorem onRegisters_moves (c : Call) (regs : List Half) (s : State) : Outcome.Moves s (onRegisters c regs s) := by
  unfold onRegisters
  split
  · exact Outcome.moves_next (.ask _ _ rfl)
  · exact Outcome.moves_next (.ask _ _ rfl)
  · exact Outcome.moves_next (askUpdate_moved _ _ s)
  · exact Outcome.moves_next (.finish _)
  · exact Outcome.moves_fault _

theorem onCoded_moves (c : Call) (r : Response) (s : State) : Outcome.Moves s (onCoded c r s) := by
  unfold onCoded
  repeat' split
  all_goals first
    | exact Outcome.moves_next (.finish _)
    | exact Outcome.moves_fault _
    | exact Outcome.moves_next (writeHalf_moved _ _ _ s)

/-- The frame just built is to be written, or the call fails. -/
theorem onBuilt_cases {x : Exchange} {r : Response} {s t : State} (h : onBuilt x r s = .next t) :
    Moved s t ∨ ∃ f, r.frame = some f ∧ t = s.await (.writing x f) := by
  unfold onBuilt at h
  split at h
  · exact .inl (Host.Outcome.next.inj h ▸ .finish _)
  · exact .inr ⟨_, ‹_›, (Host.Outcome.next.inj h).symm⟩
  · cases h

/-- The fields of a response: a plain move, an identity captured, or a redefined address. -/
theorem onParsed_cases {x : Exchange} {r : Response} {s t : State} (h : onParsed x r s = .next t) :
    Moved s t ∨
      (r.info = none ∧ x.call = .identify ∧ ∃ a n, r.address = some a ∧ r.serial = some n ∧
        t = (capture a n s).finish (.returned (.address a))) ∨
      (r.info = none ∧ ∃ a, x.call = .redefineAddress a ∧ t = (recache a s).finish (.returned .done)) := by
  unfold onParsed at h
  repeat' split at h
  all_goals first
    | exact .inl (Host.Outcome.next.inj h ▸ .finish _)
    | exact .inl (Host.Outcome.next.inj h ▸ .ask _ _ rfl)
    | exact .inl (Host.Outcome.next.inj h ▸ afterValve_moved _ s)
    | exact .inr (.inl ⟨‹_›, ‹_›, _, _, ‹_›, ‹_›, (Host.Outcome.next.inj h).symm⟩)
    | exact .inr (.inr ⟨‹_›, _, ‹_›, (Host.Outcome.next.inj h).symm⟩)
    | cases h

/-! ### The transport -/

/-- No answer: the host blocks. A failing answer: the operation ends. Else the call goes on. -/
theorem transport_cases (s : State) (c : TransportCall) (k : TransportReply → State → State) :
    (s.host.inbox = [] ∧ s.transport c k = s) ∨
      ∃ reply more, s.host.inbox = reply :: more ∧
        ((∃ d, reply.error = some d ∧ s.transport c k = (s.called more c).finish (.failed (.transport d))) ∨
          (reply.error = none ∧ s.transport c k = k reply (s.called more c))) := by
  unfold State.transport
  split
  · exact .inl ⟨‹_›, rfl⟩
  · split
    · exact .inr ⟨_, _, ‹_›, .inl ⟨_, ‹_›, rfl⟩⟩
    · exact .inr ⟨_, _, ‹_›, .inr ⟨‹_›, rfl⟩⟩

/-- A transport call followed by a move: the host blocks, or makes the call and one move. -/
theorem transport_moves {s t : State} {c : TransportCall} {k : TransportReply → State → State}
    (hk : ∀ reply s', Moved s' (k reply s')) (h : s.transport c k = t) :
    t = s ∨ ∃ more, Moved (s.called more c) t := by
  rcases transport_cases s c k with ⟨_, e⟩ | ⟨reply, more, _, ⟨d, _, e⟩ | ⟨_, e⟩⟩
  · exact .inl (h.symm.trans e)
  · exact .inr ⟨more, by rw [← h, e]; exact .finish _⟩
  · exact .inr ⟨more, by rw [← h, e]; exact hk _ _⟩

/-- A register read: it blocks, or makes one call and then one move. -/
theorem readRegs_cases {c : Call} {a : Half} {n : Nat} {rest : List (Half × Nat)} {got : List Half} {s t : State}
    (h : readRegs c a n rest got s = .next t) :
    (s.host.inbox = [] ∧ t = s) ∨ ∃ more, Moved (s.called more (.readRegisters a n)) t := by
  unfold readRegs at h
  split at h
  · exact .inl ⟨‹_›, (Host.Outcome.next.inj h).symm⟩
  · rename_i reply more _
    refine .inr ⟨more, ?_⟩
    simp only at h
    split at h
    · exact Host.Outcome.next.inj h ▸ .finish _
    · split at h
      · exact Host.Outcome.next.inj h ▸ .await _ rfl
      · exact onRegisters_moves _ _ _ t h

/-! ### The step of the host -/

/-- Everything a step of the host can do. -/
theorem hostStep_cases {s t : State} (h : hostStep s = .next t) :
    t = s ∨
      (∃ c rest, s.host.phase = .idle ∧ s.host.calls = c :: rest ∧
        Moved (s.taken rest) t) ∨
      (∃ x r, s.host.phase = .building x ∧ s.response = some r ∧ onBuilt x r s = .next t) ∨
      (∃ x r, s.host.phase = .parsing x ∧ s.response = some r ∧ onParsed x r s = .next t) ∨
      (∃ c r, s.host.phase = .coding c ∧ s.response = some r ∧ Moved s t) ∨
      (∃ call more, (∀ f, call = .write f → s.host.phase.frame = some f) ∧ Moved (s.called more call) t) := by
  unfold hostStep at h
  split at h
  · split at h
    · exact .inl (Host.Outcome.next.inj h).symm
    · exact .inr (.inl ⟨_, _, ‹_›, ‹_›, startCall_moves _ _ t h⟩)
  · unfold withResponse at h
    split at h
    · cases h
    · exact .inr (.inr (.inl ⟨_, _, ‹_›, ‹_›, h⟩))
  · rename_i x f hp
    rcases transport_moves (fun _ _ => .await _ rfl) (Host.Outcome.next.inj h) with e | ⟨more, hm⟩
    · exact .inl e
    · refine .inr (.inr (.inr (.inr (.inr ⟨.write f, more, fun g hg => ?_, hm⟩))))
      rw [hp, TransportCall.write.inj hg]
      rfl
  · rcases transport_moves (fun _ _ => .ask _ _ rfl) (Host.Outcome.next.inj h) with e | ⟨more, hm⟩
    · exact .inl e
    · exact .inr (.inr (.inr (.inr (.inr ⟨.read 10, more, fun _ hg => (by cases hg), hm⟩))))
  · unfold withResponse at h
    split at h
    · cases h
    · exact .inr (.inr (.inr (.inl ⟨_, _, ‹_›, ‹_›, h⟩)))
  · unfold withResponse at h
    split at h
    · cases h
    · exact .inr (.inr (.inr (.inr (.inl ⟨_, _, ‹_›, ‹_›, onCoded_moves _ _ _ t h⟩))))
  · rcases readRegs_cases h with ⟨_, e⟩ | ⟨more, hm⟩
    · exact .inl e
    · exact .inr (.inr (.inr (.inr (.inr ⟨.readRegisters _ _, more, fun _ hg => (by cases hg), hm⟩))))
  · rename_i c leg a v hp
    rcases transport_moves (fun _ s' => afterRegWrite_moved c leg s') (Host.Outcome.next.inj h) with e | ⟨more, hm⟩
    · exact .inl e
    · exact .inr (.inr (.inr (.inr (.inr ⟨.writeRegister a v, more, fun _ hg => (by cases hg), hm⟩))))

/-! ### The start of a call -/

/-- An idle host with a call to make starts it. -/
theorem step_of_call {s : State} {c : Call} {rest : List Call} (hr : s.request = none) (hp : s.host.phase = .idle)
    (hc : s.host.calls = c :: rest) : step s = startCall c (s.taken rest) := by
  unfold step hostStep
  rw [hr]
  simp only
  rw [hp]
  simp only
  rw [hc]

/-- The first checks look at the address alone. -/
theorem notIdentified_of_address {h : HostState} {a : Byte} (ha : h.address = some a) (c : Call) :
    notIdentified h c = none := by simp [notIdentified, HostState.sessionState, ha]

theorem notIdentified_of_unset {h : HostState} {c : Call} (ha : h.address = none) (hc : c ≠ .identify) :
    notIdentified h c = some (.notIdentified c) := by
  have hs : h.sessionState = .unidentified := by simp [HostState.sessionState, ha]
  unfold notIdentified
  rw [hs]
  cases c <;> first | rfl | exact absurd rfl hc

/-- With the address known, the error is the argument's. -/
theorem callError_of_address {h : HostState} {a : Byte} (ha : h.address = some a) (c : Call) :
    callError h c = badArgument h.params c := by
  unfold callError
  rw [notIdentified_of_address ha]
  cases badArgument h.params c <;> rfl

/-- A call that its checks refuse ends at once. -/
theorem startCall_of_error {s : State} {c : Call} {e : HostError} (he : callError s.host c = some e)
    (hc : c ≠ .identify ∨ s.host.address = none) : startCall c s = .next (s.finish (.failed e)) := by
  unfold startCall
  split
  · rename_i ha
    rcases hc with h | h
    · exact absurd rfl h
    · rw [h] at ha
      cases ha
  · rw [he]

/-- Whatever a conversion fails with is ValidationError. -/
theorem fromEngineering_error {f m : Rat} {e : HostError} (h : fromEngineering f m = .error e) :
    e.status = .validationError := by
  unfold fromEngineering at h
  split at h
  · cases h
    rfl
  · simp only at h
    split at h
    · cases h
    · split at h <;> cases h
      rfl

/-- A bad argument is ValidationError. -/
theorem badArgument_status {p : HostParams} {c : Call} {e : HostError} (h : badArgument p c = some e) :
    e.status = .validationError := by
  unfold badArgument at h
  repeat' split at h
  all_goals first
    | (cases h; rfl)
    | (cases h; exact fromEngineering_error ‹_›)
    | cases h

end Sys2Proof.Machine
end

