-- ==== Sys2Proof/Tests/Slice0.lean ====
section
/-! SUPPORT. The model's own tests. Expected results come from spec/95_test_vectors.md (the configuration EX, the vectors V1 to
V91, the programs P1 to P5) or by hand from the rule named. Then one witness per hypothesis of the obligations. -/

namespace Sys2Proof.Tests

open Sys2Proof.Machine

/-! ### The illustrative configuration EX (95_test_vectors section 1) -/

def plugField : FieldSpec :=
  { name := "Plug", mask := 0x03, shift := 0
    domain := [⟨"REGULATION", 0⟩, ⟨"OPEN", 1⟩, ⟨"CLOSED", 2⟩, ⟨"UNSPECIFIED", 3⟩] }

def recoveryField : FieldSpec :=
  { name := "Recovery", mask := 0x04, shift := 2, domain := [⟨"OFF", 0⟩, ⟨"ON", 1⟩] }

def typeModeField : FieldSpec :=
  { name := "TypeMode", mask := 0x30, shift := 4, domain := [⟨"M0", 0⟩, ⟨"M1", 1⟩, ⟨"M2", 2⟩] }

def alarmField : FieldSpec :=
  { name := "Alarm", mask := 0x01, shift := 0, domain := [⟨"NO", 0⟩, ⟨"YES", 1⟩] }

def sensorField : FieldSpec :=
  { name := "Sensor", mask := 0x06, shift := 1, domain := [⟨"OK", 0⟩, ⟨"FAIL", 1⟩] }

def exParams : Params :=
  { t1 := [plugField, recoveryField, typeModeField], t2 := [alarmField, sensorField]
    stateRspOff1 := 4, stateRspOff2 := 5, addrdefReqAddr := 0x00 }

theorem test_ex_is_well_formed : exParams.WF := by decide

def ex : UnitConfig := ⟨exParams, test_ex_is_well_formed⟩

/-- Host parameters for variant a: address unset at construction, `max_flow` = 100, the valve field at position 0. -/
def hostA : HostParams :=
  { variant := .a, maxFlow := 100, busAddress := 3, iPlug := 0, valveClosed := 2, valveRegulation := 0
    validationFirst := false, zeroShiftSigned := true, readdressUpdates := false, splitFlagReads := true
    writeBack := .plug }

def hostB : HostParams := { hostA with variant := .b }

/-- EX with the host as constructed, in variant a and in variant b. -/
def stA : State := { config := ex, host := .fresh hostA }
def stB : State := { config := ex, host := .fresh hostB }

/-- Variant a with identity (3, 7), in a phase. -/
def inPhase (ph : Phase) : State :=
  { stA with host := { HostState.fresh hostA with address := some 3, serial := some 7, phase := ph } }

/-- A frame from its ten bytes. -/
def frameOf (c b1 b2 b3 b4 b5 b6 a k l : Byte) : Frame :=
  { payload := { cmd := c, args := ⟨b1, b2, b3, b4, b5, b6⟩, addr := a }, ckHi := k, ckLo := l }

/-- The response of one instruction under EX. -/
def answer (i : Instr) : Option Response :=
  match exec i stA with
  | .next t => t.response
  | .fault _ => none
  | .refused _ => none

/-- The next state of one step, if there is one. -/
def stepped (s : State) : Option State :=
  match step s with
  | .next t => some t
  | .fault _ => none
  | .refused _ => none

def fields1 (a b c : Byte) : List FieldValue := [⟨.first, 0, a⟩, ⟨.first, 1, b⟩, ⟨.first, 2, c⟩]
def fields2 (a b : Byte) : List FieldValue := [⟨.second, 0, a⟩, ⟨.second, 1, b⟩]

/-- The DomainError responses of V3 and V11. -/
def badTypeMode : Response := { status := .domainError, info := some (.domain .first 2 "TypeMode" 3) }
def badSensor : Response := { status := .domainError, info := some (.domain .second 1 "Sensor" 2) }

/-- The frames of V60 and V63: a read-flow response, and the same with bit 0 of byte 9 flipped. -/
def v60 : Frame := frameOf 0x11 0x00 0x0C 0x80 0x13 0x88 0x00 0x03 0x01 0x3B
def v63 : Frame := frameOf 0x11 0x00 0x0C 0x80 0x13 0x88 0x00 0x03 0x01 0x3A

/-! ### Well-formedness (R25, R26, D29, R164): what each check refuses -/

/-- R25: masks 0x03 and 0x06 overlap in bit 1. -/
theorem test_wf_overlapping_masks :
    UnitConfig.ofParams { exParams with t2 := [{ alarmField with mask := 0x03 }, sensorField] } = none := by decide

/-- R26 (a): two members of one value. -/
theorem test_wf_duplicate_value :
    UnitConfig.ofParams { exParams with t2 := [{ alarmField with domain := [⟨"NO", 0⟩, ⟨"YES", 0⟩] }] } = none := by decide

/-- R26 (a): two members of one name. -/
theorem test_wf_duplicate_name :
    UnitConfig.ofParams { exParams with t2 := [{ alarmField with domain := [⟨"NO", 0⟩, ⟨"NO", 1⟩] }] } = none := by decide

/-- R26 (b): the value 2 shifted by 0 falls on a reserved bit. -/
theorem test_wf_value_outside_mask :
    UnitConfig.ofParams { exParams with t2 := [{ alarmField with domain := [⟨"NO", 0⟩, ⟨"YES", 2⟩] }] } = none := by decide

/-- R26 (b), 'over all integer bits': 256 shifted by 0 is beyond bit 7, though its low eight bits are 0. -/
theorem test_wf_value_beyond_the_byte :
    UnitConfig.ofParams { exParams with t1 := [{ alarmField with domain := [⟨"NO", 0⟩, ⟨"YES", 256⟩] }] } = none := by decide

/-- D29: a status byte lies at 1 to 7. -/
theorem test_wf_offset_zero : UnitConfig.ofParams { exParams with stateRspOff1 := 0 } = none := by decide
theorem test_wf_offset_in_trailer : UnitConfig.ofParams { exParams with stateRspOff2 := 8 } = none := by decide

/-- The same members are accepted where they fit. -/
theorem test_wf_accepts : (UnitConfig.ofParams exParams).isSome = true := by decide

/-- R164: a BAUD at 4800, or at a negative rate, has no encoding. -/
theorem test_wf_baud_4800 : Instr.wf (.baud 4800 3) = false ∧ Instr.wf (.baud (-9600) 3) = false := by decide

/-! ### Decoding: words written out from 30_encoding (R71, R73, R75) -/

theorem test_decode_dec1 : decodeTableWord 8 0 = some (.dec1 (.byte 0)) := by decide
theorem test_decode_dec2 : decodeTableWord 8 1 = some (.dec2 (.byte 0)) := by decide
theorem test_decode_decw : decodeTableWord 8 2 = some (.decw (.byte 0) (.byte 0)) := by decide
theorem test_decode_enc1 : decodeTableWord 8 3 = some (.enc1 []) := by decide
theorem test_decode_upd1 : decodeTableWord 8 4 = some (.upd1 (.byte 0) 0 0) := by decide
theorem test_decode_csum : decodeTableWord 8 5 = some (.csum {}) := by decide
theorem test_decode_build : decodeTableWord 8 6 = some (.build 0 {} 0) := by decide
theorem test_decode_valid : decodeTableWord 8 7 = some (.valid {}) := by decide

/-- R72: 8 and 15 are reserved. -/
theorem test_decode_reserved :
    decodeRequest (.unitOp 8 {}) = .illegalOp 8 ∧ decodeRequest (.unitOp 15 {}) = .illegalOp 15 := by decide

/-- V55 V57 V59 V76: code at 79..72, address at 23..16, checksum at 15..0. -/
theorem test_decode_getstate : decodeTableWord 80 0x01000000000000030004 = some (.getstate 3) := by decide
theorem test_decode_addrdef : decodeTableWord 80 0x02000000000000000002 = some (.addrdef 0) := by decide
theorem test_decode_rdflow : decodeTableWord 80 0x11000000000000030014 = some (.rdflow 3) := by decide
theorem test_decode_zeroget : decodeTableWord 80 0x23000000000000030026 = some (.zeroget 3) := by decide

/-- V65 V66 V67: the three rate codes at position 2. -/
theorem test_decode_baud :
    decodeTableWord 80 0x16000000000000030019 = some (.baud 9600 3) ∧
    decodeTableWord 80 0x1600FF00000000030118 = some (.baud 19200 3) ∧
    decodeTableWord 80 0x1600010000000003001A = some (.baud 38400 3) := by decide

/-- V64 V73 V71 V72: one-byte arguments at 1 and 3, at 2, at 1, at 2. -/
theorem test_decode_regime : decodeTableWord 80 0x1801000200000003001E = some (.regime 1 2 3) := by decide
theorem test_decode_readdr : decodeTableWord 80 0x1B000500000000030023 = some (.readdr 5 3) := by decide
theorem test_decode_recov : decodeTableWord 80 0x1F010000000000030023 = some (.recov 1 3) := by decide
theorem test_decode_plug : decodeTableWord 80 0x20000200000000030025 = some (.plug 2 3) := by decide

/-- V74 V69: 16-bit arguments, high byte first, at 4 and at 2. -/
theorem test_decode_zeroset : decodeTableWord 80 0x2300000101230003004B = some (.zeroset 0x0123 3) := by decide
theorem test_decode_setflow : decodeTableWord 80 0x250013880000000300C3 = some (.setflow 0x1388 3) := by decide

/-- R77: a response is read by the request just sent. -/
theorem test_decode_getstateR : decodeRequest (.rspLayout .getstate v60) = .instr (.getstateR v60) := by decide
theorem test_decode_addrdefR : decodeRequest (.rspLayout .addrdef v60) = .instr (.addrdefR v60) := by decide
theorem test_decode_rdflowR : decodeRequest (.rspLayout .rdflow v60) = .instr (.rdflowR v60) := by decide
theorem test_decode_zerogetR : decodeRequest (.rspLayout .zeroget v60) = .instr (.zerogetR v60) := by decide
theorem test_decode_ackR : decodeRequest (.rspLayout .zeroset v60) = .instr (.ackR v60) := by decide

/-- I3, R78, R80, R164: frames that stand for no layout, each rejected by its own name. -/
theorem test_decode_rejects :
    decodeReqFrame (frameOf 0x23 0 0 2 0 0 0 3 0 0) = .rejected (.zeroFlag 2) ∧
    decodeReqFrame (frameOf 0x03 0 0 0 0 0 0 3 0 0) = .rejected (.noLayout 3) ∧
    decodeReqFrame (frameOf 0x01 9 0 0 0 0 0 3 0 0) = .rejected (.fillNotZero .getstate) ∧
    decodeReqFrame (frameOf 0x16 0 2 0 0 0 0 3 0 0) = .rejected (.noRate 2) := by decide

/-- The encoder gives the frames of V66 and V75. -/
theorem test_encode_frames :
    encodeFrame (.baud 19200 3) = some (frameOf 0x16 0 0xFF 0 0 0 0 3 0x01 0x18) ∧
    encodeFrame (.zeroset 0xFFFF 3) = some (frameOf 0x23 0 0 1 0xFF 0xFF 0 3 0x02 0x25) := by decide

/-! ### StateCodec: at most two vectors an instruction -/

/-- V4: gap bits set and ignored. -/
theorem test_dec1_gap_bits : answer (.dec1 (.byte 0xA9)) = some { fields := some (fields1 1 0 2) } := by decide
/-- V5: fields 0 and 1 decode, field 2 fails, nothing is returned. -/
theorem test_dec1_domain_error : answer (.dec1 (.byte 0xFF)) = some badTypeMode := by decide
/-- V13, as a register with its upper byte set (R112). -/
theorem test_dec2_register : answer (.dec2 (.reg 0xA5FB)) = some { fields := some (fields2 1 1) } := by decide
/-- V11. -/
theorem test_dec2_domain_error : answer (.dec2 (.byte 0x04)) = some badSensor := by decide
/-- V14. -/
theorem test_decw_first_then_second :
    answer (.decw (.byte 0x21) (.byte 0x03)) = some { fields := some (fields1 1 0 2 ++ fields2 1 1) } := by decide
/-- V15: both bytes bad, the first is reported. -/
theorem test_decw_first_error_wins : answer (.decw (.byte 0x31) (.byte 0x04)) = some badTypeMode := by decide
/-- V18: the largest byte. -/
theorem test_enc1_largest : answer (.enc1 (fields1 3 1 2)) = some { byte := some 0x27 } := by decide
/-- V23, V24, V30: identity, length, and the lower of two foreign values. -/
theorem test_enc1_errors :
    answer (.enc1 [⟨.first, 1, 1⟩, ⟨.first, 0, 2⟩, ⟨.first, 2, 0⟩]) =
      some { status := .shapeError, info := some (.shapeIdentity 0 (some (.first, 1))) } ∧
    answer (.enc1 [⟨.first, 0, 2⟩, ⟨.first, 1, 1⟩]) =
      some { status := .shapeError, info := some (.shapeLength 3 2) } ∧
    answer (.enc1 (fields1 1 2 3)) =
      some { status := .domainError, info := some (.domain .first 1 "Recovery" 2) } := by decide
/-- V33: the byte differs from `raw1`, and still no write is needed. -/
theorem test_upd1_no_difference :
    answer (.upd1 (.byte 0xAA) 0 2) = some { byte := some 0x22, writeNeeded := some false } := by decide
/-- V34, V37, V38, V39: another field kept; then the three errors. -/
theorem test_upd1_write_and_errors :
    answer (.upd1 (.byte 0x21) 2 0) = some { byte := some 0x01, writeNeeded := some true } ∧
    answer (.upd1 (.byte 0x21) 3 0) = some { status := .shapeError, info := some (.shapeIdentity 3 none) } ∧
    answer (.upd1 (.byte 0x21) 1 2) =
      some { status := .domainError, info := some (.domain .first 1 "Recovery" 2) } ∧
    answer (.upd1 (.byte 0x31) 2 1) = some badTypeMode := by decide

/-! ### ChecksumFrame -/

/-- V41: the maximum, no wrap. -/
theorem test_csum_maximum :
    answer (.csum { cmd := 0xFF, args := ⟨0xFF, 0xFF, 0xFF, 0xFF, 0xFF, 0xFF⟩, addr := 0xFF }) =
      some { sum := some 0x07F8 } := by decide
/-- V42. -/
theorem test_csum_every_byte : answer (.csum v60.payload) = some { sum := some 0x013B } := by decide
/-- V45: a code with no layout still builds. -/
theorem test_build_unlisted_code :
    answer (.build 0x7E ⟨1, 2, 3, 4, 5, 6⟩ 9) = some { frame := some (frameOf 0x7E 1 2 3 4 5 6 9 0x00 0x9C) } := by decide
/-- V44: the high checksum byte is at position 8. -/
theorem test_build_high_byte_first :
    answer (.build 0xFF ⟨0xFF, 0xFF, 0xFF, 0xFF, 0xFF, 0xFF⟩ 0xFF) =
      some { frame := some (frameOf 0xFF 0xFF 0xFF 0xFF 0xFF 0xFF 0xFF 0xFF 0x07 0xF8) } := by decide
/-- V53: sum 256, a carry into the high byte. -/
theorem test_valid_carry : answer (.valid (frameOf 1 0 0 0 0 0 0 0xFF 0x01 0x00)) = some { ok := some true } := by decide
/-- V54: the trailer in little-endian order is rejected, with both sums. -/
theorem test_valid_little_endian_trailer :
    answer (.valid (frameOf 1 0 0 0 0 0 0 0xFF 0x00 0x01)) =
      some { status := .checksumError, info := some (.checksum 0x0100 0x0001), ok := some false } := by decide

/-! ### Frame layouts (address 3) -/

/-- V55. -/
theorem test_getstate : answer (.getstate 3) = some { frame := some (frameOf 1 0 0 0 0 0 0 3 0 0x04) } := by decide
/-- V57. -/
theorem test_addrdef : answer (.addrdef 0) = some { frame := some (frameOf 2 0 0 0 0 0 0 0 0 0x02) } := by decide
/-- V59. -/
theorem test_rdflow : answer (.rdflow 3) = some { frame := some (frameOf 0x11 0 0 0 0 0 0 3 0 0x14) } := by decide
/-- V66. -/
theorem test_baud_19200 :
    answer (.baud 19200 3) = some { frame := some (frameOf 0x16 0 0xFF 0 0 0 0 3 0x01 0x18) } := by decide
/-- V68; and R163, R164: `rate` is an integer, a negative one is rejected like every other. -/
theorem test_baud_4800 :
    answer (.baud 4800 3) = some { status := .validationError, info := some (.validation 4800) } ∧
    answer (.baud (-9600) 3) = some { status := .validationError, info := some (.validation (-9600)) } := by decide
/-- V64. -/
theorem test_regime : answer (.regime 1 2 3) = some { frame := some (frameOf 0x18 1 0 2 0 0 0 3 0 0x1E) } := by decide
/-- V73. -/
theorem test_readdr : answer (.readdr 5 3) = some { frame := some (frameOf 0x1B 0 5 0 0 0 0 3 0 0x23) } := by decide
/-- V71. -/
theorem test_recov : answer (.recov 1 3) = some { frame := some (frameOf 0x1F 1 0 0 0 0 0 3 0 0x23) } := by decide
/-- V72. -/
theorem test_plug : answer (.plug 2 3) = some { frame := some (frameOf 0x20 0 2 0 0 0 0 3 0 0x25) } := by decide
/-- V75: the pattern carried unchanged. -/
theorem test_zeroset :
    answer (.zeroset 0xFFFF 3) = some { frame := some (frameOf 0x23 0 0 1 0xFF 0xFF 0 3 0x02 0x25) } := by decide
/-- V76. -/
theorem test_zeroget : answer (.zeroget 3) = some { frame := some (frameOf 0x23 0 0 0 0 0 0 3 0 0x26) } := by decide
/-- V70. -/
theorem test_setflow :
    answer (.setflow 0xFF9C 3) = some { frame := some (frameOf 0x25 0 0xFF 0x9C 0 0 0 3 0x01 0xC3) } := by decide
/-- V56. -/
theorem test_getstateR :
    answer (.getstateR (frameOf 1 0 0 0 0x21 3 0 3 0 0x28)) = some { raw1 := some 0x21, raw2 := some 0x03 } := by decide
/-- V58. -/
theorem test_addrdefR :
    answer (.addrdefR (frameOf 2 0 0 0 0 0 7 3 0 0x0C)) = some { address := some 3, serial := some 7 } := by decide
/-- V62: the extremes of the signed reading. -/
theorem test_rdflowR_extremes :
    answer (.rdflowR (frameOf 0x11 0 0x80 0x00 0x7F 0xFF 0 3 0x02 0x12)) =
      some { flow := some (-32768), setpoint := some 32767 } := by decide
/-- V63: no field of an invalid frame. -/
theorem test_rdflowR_checksum_error :
    answer (.rdflowR v63) = some { status := .checksumError, info := some (.checksum 0x013B 0x013A) } := by decide
/-- V77. -/
theorem test_zerogetR :
    answer (.zerogetR (frameOf 0x23 0 0 0 0x01 0x23 0 3 0 0x4A)) = some { shift := some 0x0123 } := by decide
/-- V79: no echo is checked. -/
theorem test_ackR : answer (.ackR (frameOf 0 0 0 0 0 0 0 0 0 0)) = some {} := by decide

/-! ### The step -/

/-- P5, step 7: a reserved selector, through the fetch of a table word. -/
theorem test_step_illegal_op :
    (stepped (stA.withFetchWord 8 9)).map (fun t => (t.request, t.response)) =
      some (none, some { status := .illegalOp, info := some (.illegalOp 9) }) := by decide

/-- A request frame placed by withFetchWord runs in the very next step (V59). -/
theorem test_step_runs_fetched_word :
    (stepped (stA.withFetchWord 80 0x11000000000000030014)).map (fun t => t.response) =
      some (some { frame := some (frameOf 0x11 0 0 0 0 0 0 3 0 0x14) }) := by decide

/-! ### The host, one step each -/

/-- R58: the seven registers, in the order DOC lists them. -/
theorem test_register_map :
    [Register.netAddress, .deviceNumber, .flags1, .flags2, .setpoint, .flow, .commSpeed].map Register.address =
      [0x0000, 0x0001, 0x0002, 0x0003, 0x0004, 0x0005, 0x0006] := by decide

/-- V80, V82, V83, V91. -/
theorem test_to_engineering :
    toEngineering 0x0C80 100 = .ok 32 ∧ toEngineering 0xFF9C 100 = .ok (-1) ∧
    toEngineering 0x8000 100 = .ok (-32768 / 100) ∧ toEngineering 1 0 = .error (.validation 0) := by decide +kernel

/-- V86, V87, V88. -/
theorem test_from_engineering :
    fromEngineering (-1) 100 = .ok 0xFF9C ∧ fromEngineering (-100) 100 = .ok 0xD8F0 ∧
    fromEngineering (33333 / 1000) 100 = .ok 0x0D05 := by decide +kernel

/-- P3, steps 1 and 2: the first request of identify is ADDRDEF with `ADDRDEF_REQ_ADDR`. -/
theorem test_host_identify_asks :
    (stepped { stA with host := { stA.host with calls := [.identify] } }).map (fun t => t.request) =
      some (some (.reqLayout .addrdef { addr := 0x00 })) := by decide

/-- P3, step 6: the identity is captured. -/
theorem test_host_identify_captures :
    (stepped { inPhase (.parsing { call := .identify, leg := .only, sent := .addrdef }) with
        response := some { address := some 9, serial := some 0x0102 } }).map
      (fun t => (t.host.address, t.host.serial, t.host.result)) =
      some (some 9, some 0x0102, some (.returned (.address 9))) := by decide +kernel

/-- P3, variation: getState before identify. -/
theorem test_host_not_identified :
    (stepped { stA with host := { stA.host with calls := [.getState] } }).map (fun t => (t.request, t.host.result)) =
      some (none, some (.failed (.notIdentified .getState))) := by decide +kernel

/-- P1, step 6: 3200 and 5000 at max_flow 100 are 32 and 50. -/
theorem test_host_read_flow :
    (stepped { inPhase (.parsing { call := .readFlow, leg := .only, sent := .rdflow }) with
        response := some { flow := some 3200, setpoint := some 5000 } }).map (fun t => t.host.result) =
      some (some (.returned (.flow 32 (some 50)))) := by decide +kernel

/-- P2, case (a): the byte goes to register 0x0002, zero-extended. -/
theorem test_host_write_back_b :
    (stepped { stB with
        response := some { byte := some 0x22, writeNeeded := some true }
        host := { stB.host with phase := .coding (.writeFlow 0) } }).map (fun t => t.host.phase) =
      some (.regWriting (.writeFlow 0) .writeBack 0x0002 0x0022) := by decide +kernel

/-- P2, case (c): the setpoint follows, 50 at max_flow 100 is 0x1388. -/
theorem test_host_setpoint_b :
    (stepped { stB with
        host := { stB.host with
          phase := .regWriting (.writeFlow 50) .writeBack 0x0002 0x0020, inbox := [{}] } }).map (fun t => t.host.phase) =
      some (.regWriting (.writeFlow 50) (.setpoint 0x1388) 0x0004 0x1388) := by decide +kernel

/-- P4, case (b): setBaudrate(4800) fails and nothing is asked or written. -/
theorem test_host_baud_4800 :
    (stepped { inPhase .idle with host := { (inPhase .idle).host with calls := [.setBaudrate 4800] } }).map
      (fun t => (t.request, t.host.log, t.host.result)) =
      some (none, [], some (.failed (.unit (.validation 4800)))) := by decide +kernel

/-! ### Witnesses: states and operands that meet the hypotheses of the obligations

A witness named after an obligation meets the hypotheses of that statement together, one conjunct or one theorem a clause. -/

theorem witness_dec1_decodes : Decodes ex.t1 (StatusValue.byte 0xEF).reduce := by unfold Decodes; decide
theorem witness_dec1_bad : FirstBad ex.t1 (StatusValue.byte 0xFF).reduce 2 typeModeField :=
  ⟨rfl, by decide, by unfold Decodes; decide⟩
theorem witness_dec2_decodes : Decodes ex.t2 (StatusValue.reg 0xFFFB).reduce := by unfold Decodes; decide
theorem witness_dec2_bad : FirstBad ex.t2 (StatusValue.byte 0x04).reduce 1 sensorField :=
  ⟨rfl, by decide, by unfold Decodes; decide⟩

/-- A byte whose position 0 fails: the lowest position there is. -/
theorem witness_bad_at_zero : FirstBad [sensorField] (StatusValue.byte 0x06).reduce 0 sensorField :=
  ⟨rfl, by decide, by unfold Decodes; decide⟩

theorem witness_decw_decodes : Decodes ex.t1 (StatusValue.byte 0x27).reduce ∧ Decodes ex.t2 (StatusValue.byte 0x03).reduce := by
  unfold Decodes; decide
theorem witness_decw_first_bad : FirstBad ex.t1 (StatusValue.byte 0x30).reduce 2 typeModeField :=
  ⟨rfl, by decide, by unfold Decodes; decide⟩
theorem witness_decw_second_bad :
    Decodes ex.t1 (StatusValue.byte 0x00).reduce ∧ FirstBad ex.t2 (StatusValue.byte 0x06).reduce 1 sensorField :=
  ⟨by unfold Decodes; decide, rfl, by decide, by unfold Decodes; decide⟩

theorem matches_fields1 (a b c : Byte) : MatchesFirst ex (fields1 a b c) := by
  refine ⟨rfl, fun k v h => ?_⟩
  match k with
  | 0 | 1 | 2 => cases h; exact ⟨rfl, rfl⟩
  | k + 3 => simp [fields1] at h

theorem inDomain_fields1 {a b c : Byte} (ha : (memberOf plugField.domain a).isSome = true)
    (hb : (memberOf recoveryField.domain b).isSome = true) (hc : (memberOf typeModeField.domain c).isSome = true) :
    ∀ v ∈ fields1 a b c, InDomain ex v := by
  intro v hv
  simp only [fields1, List.mem_cons, List.not_mem_nil, or_false] at hv
  rcases hv with rfl | rfl | rfl
  · exact ⟨plugField, rfl, ha⟩
  · exact ⟨recoveryField, rfl, hb⟩
  · exact ⟨typeModeField, rfl, hc⟩

theorem witness_enc1_packs : MatchesFirst stA.config (fields1 3 1 2) ∧ ∀ v ∈ fields1 3 1 2, InDomain stA.config v :=
  ⟨matches_fields1 3 1 2, inDomain_fields1 (by decide) (by decide) (by decide)⟩

theorem witness_enc1_length : (fields1 0 0 0 ++ fields2 0 0).length ≠ stA.config.t1.length := by decide
theorem witness_enc1_length_empty : ([] : List FieldValue).length ≠ stA.config.t1.length := by decide

/-- V27: the first misplaced element is the last one. -/
theorem witness_enc1_identity :
    ∃ (seq : List FieldValue) (v : FieldValue), seq.length = stA.config.t1.length ∧ seq[2]? = some v ∧
      ¬ (v.tab = .first ∧ v.idx = 2) ∧
      ∀ (j : Nat) (w : FieldValue), j < 2 → seq[j]? = some w → w.tab = .first ∧ w.idx = j := by
  refine ⟨[⟨.first, 0, 1⟩, ⟨.first, 1, 0⟩, ⟨.second, 0, 1⟩], ⟨.second, 0, 1⟩, rfl, rfl, by decide, fun j w hj h => ?_⟩
  match j with
  | 0 | 1 => cases h; exact ⟨rfl, rfl⟩
  | j + 2 => omega

/-- V23: the first one is. -/
theorem witness_enc1_identity_at_zero :
    ∃ (seq : List FieldValue) (v : FieldValue), seq.length = stA.config.t1.length ∧ seq[0]? = some v ∧
      ¬ (v.tab = .first ∧ v.idx = 0) ∧
      ∀ (j : Nat) (w : FieldValue), j < 0 → seq[j]? = some w → w.tab = .first ∧ w.idx = j :=
  ⟨[⟨.first, 1, 1⟩, ⟨.first, 0, 2⟩, ⟨.first, 2, 0⟩], ⟨.first, 1, 1⟩, rfl, rfl, by decide, fun _ _ h => by omega⟩

/-- V29. -/
theorem witness_enc1_domain :
    MatchesFirst stA.config (fields1 1 0 3) ∧ (fields1 1 0 3)[2]? = some ⟨.first, 2, 3⟩ ∧
      stA.config.t1[2]? = some typeModeField ∧ memberOf typeModeField.domain 3 = none ∧
      ∀ w ∈ (fields1 1 0 3).take 2, InDomain stA.config w :=
  ⟨matches_fields1 1 0 3, rfl, rfl, by decide, fun w hw =>
    inDomain_fields1 (a := 1) (b := 0) (c := 0) (by decide) (by decide) (by decide) w
      (List.mem_of_mem_take (i := 2) hw)⟩

theorem witness_enc1_second_table : ∃ v ∈ [(⟨.first, 0, 1⟩ : FieldValue), ⟨.first, 1, 0⟩, ⟨.second, 0, 1⟩], v.tab = .second := by
  decide

theorem witness_upd1_replaces :
    stA.config.t1[2]? = some typeModeField ∧ (memberOf typeModeField.domain 2).isSome = true ∧
      Decodes stA.config.t1 (StatusValue.reg 0xFF21).reduce := ⟨rfl, by decide, by unfold Decodes; decide⟩
theorem witness_upd1_index : stA.config.t1.length ≤ 3 := by decide
theorem witness_upd1_value : stA.config.t1[1]? = some recoveryField ∧ memberOf recoveryField.domain 2 = none := by decide
theorem witness_upd1_decode :
    stA.config.t1[0]? = some plugField ∧ (memberOf plugField.domain 2).isSome = true ∧
      FirstBad stA.config.t1 (StatusValue.byte 0x31).reduce 2 typeModeField :=
  ⟨rfl, by decide, rfl, by decide, by unfold Decodes; decide⟩

theorem witness_upd1_is_decode_replace_encode :
    ∃ t u, exec (.dec1 (.byte 0x21)) stA = .next t ∧ t.response = some { fields := some (fields1 1 0 2) } ∧
      exec (.upd1 (.byte 0x21) 2 0) stA = .next u ∧
      u.response = some { byte := some 0x01, writeNeeded := some true } := ⟨_, _, rfl, rfl, rfl, rfl⟩

theorem witness_round_trip :
    ∃ t, exec (.enc1 (fields1 2 1 1)) stA = .next t ∧ t.response = some { byte := some 0x16 } := ⟨_, rfl, rfl⟩

theorem witness_converse :
    (∃ t, exec (.dec1 (.byte 0xA9)) stA = .next t ∧ t.response = some { fields := some (fields1 1 0 2) }) ∧
      ∀ fs ∈ stA.config.t1, Aligned fs := ⟨⟨_, rfl, rfl⟩, by unfold Aligned; decide +kernel⟩

theorem witness_upd1_keeps :
    (∃ t, exec (.upd1 (.byte 0xE9) 0 2) stA = .next t ∧
      t.response = some { byte := some 0x22, writeNeeded := some true }) ∧
      stA.config.t1[2]? = some typeModeField ∧ Aligned typeModeField :=
  ⟨⟨_, rfl, rfl⟩, rfl, by unfold Aligned; decide +kernel⟩

theorem witness_reserved_bits :
    ((0xA9 : Byte) &&& covered stA.config.t1 = 0x21 &&& covered stA.config.t1) ∧
      ((0xFB : Byte) &&& covered stA.config.t2 = 0x03 &&& covered stA.config.t2) := by decide

theorem witness_checksum_range :
    ∃ t, exec (.csum { cmd := 0xFF, args := ⟨0xFF, 0xFF, 0xFF, 0xFF, 0xFF, 0xFF⟩, addr := 0xFF }) stA = .next t ∧
      t.response = some { sum := some 0x07F8 } := ⟨_, rfl, rfl⟩

theorem witness_valid_cases :
    exec (.valid v60) stA = .next { stA with request := none, response := some { ok := some true } } ∧
      checksumOk v60 = true ∧ checksumOk v63 = false := ⟨rfl, by decide, by decide⟩

theorem witness_built_frame :
    ∃ t, exec (.build 0x11 {} 3) stA = .next t ∧
      t.response = some { frame := some (frameOf 0x11 0 0 0 0 0 0 3 0 0x14) } := ⟨_, rfl, rfl⟩

theorem witness_exchange : (0 : Fin 10).val < 8 ∧ (7 : Fin 10).val < 8 := by decide

theorem witness_independence :
    (∃ r, exec (.csum {}) stA = .next (stA.answer r)) ∧ (∃ r, exec (.build 0 {} 0) stA = .next (stA.answer r)) ∧
      ∃ r, exec (.valid v63) stA = .next (stA.answer r) := ⟨⟨_, rfl⟩, ⟨_, rfl⟩, ⟨_, rfl⟩⟩

theorem witness_address_only :
    (Instr.zeroget 0xFF, (0x23 : Byte)) ∈
      [(Instr.getstate 0xFF, (0x01 : Byte)), (.addrdef 0xFF, 0x02), (.rdflow 0xFF, 0x11), (.zeroget 0xFF, 0x23)] := by decide

theorem witness_one_byte_arguments :
    (Instr.readdr 5 3, ({ cmd := 0x1B, args := ⟨0, 5, 0, 0, 0, 0⟩, addr := 3 } : Payload)) ∈
      [(Instr.regime 5 2 3, ({ cmd := 0x18, args := ⟨5, 0, 2, 0, 0, 0⟩, addr := 3 } : Payload)),
        (.recov 5 3, { cmd := 0x1F, args := ⟨5, 0, 0, 0, 0, 0⟩, addr := 3 }),
        (.plug 5 3, { cmd := 0x20, args := ⟨0, 5, 0, 0, 0, 0⟩, addr := 3 }),
        (.readdr 5 3, { cmd := 0x1B, args := ⟨0, 5, 0, 0, 0, 0⟩, addr := 3 })] := by decide

theorem witness_baud_rates :
    ((38400 : Int), (0x01 : Byte)) ∈ [((9600 : Int), (0x00 : Byte)), (19200, 0xFF), (38400, 0x01)] ∧
      (9601 : Int) ∉ [9600, 19200, 38400] ∧ (-19200 : Int) ∉ [9600, 19200, 38400] := by decide

theorem witness_layout_encoding :
    encodeFrame (.setflow 0x1388 3) = some (frameOf 0x25 0 0x13 0x88 0 0 0 3 0 0xC3) := by decide

theorem witness_valid_responses :
    checksumOk (frameOf 1 0 0 0 0x21 3 0 3 0 0x28) = true ∧ checksumOk (frameOf 2 0 0 0 0 0 7 3 0 0x0C) = true ∧
    checksumOk (frameOf 0x11 0 0x80 0x00 0x7F 0xFF 0 3 0x02 0x12) = true ∧
    checksumOk (frameOf 0x23 0 0 0 0x01 0x23 0 3 0 0x4A) = true := by decide

theorem witness_invalid_response :
    ∃ t v, exec (.valid v63) stA = .next t ∧ t.response = some v ∧ v.status ≠ .ok ∧
      Instr.ackR v63 ∈ [Instr.getstateR v63, .addrdefR v63, .rdflowR v63, .zerogetR v63, .ackR v63] :=
  ⟨_, _, rfl, rfl, by decide, by decide⟩

theorem witness_unsupported_rate :
    ((9599 : Int) ≠ 9600 ∧ (9599 : Int) ≠ 19200 ∧ (9599 : Int) ≠ 38400) ∧
      ((-9600 : Int) ≠ 9600 ∧ (-9600 : Int) ≠ 19200 ∧ (-9600 : Int) ≠ 38400) := by decide

/-- Two valid frames that differ in bytes 0 and 1, which no response layout reads here. -/
def w1 : Frame := frameOf 0x11 0 0x0C 0x80 0x13 0x88 0 3 0x01 0x3B
def w2 : Frame := frameOf 0x10 1 0x0C 0x80 0x13 0x88 0 3 0x01 0x3B

theorem witness_unread_bytes :
    w1 ≠ w2 ∧ checksumOk w1 = true ∧ checksumOk w2 = true ∧
      frameRead w1 stA.config.stateRspOff1 = frameRead w2 stA.config.stateRspOff1 ∧
      frameRead w1 stA.config.stateRspOff2 = frameRead w2 stA.config.stateRspOff2 ∧
      (∀ p : Fin 10, p.val ∈ [5, 6, 7] → frameRead w1 p = frameRead w2 p) ∧
      (∀ p : Fin 10, p.val ∈ [2, 3, 4, 5] → frameRead w1 p = frameRead w2 p) ∧
      (∀ p : Fin 10, p.val ∈ [4, 5] → frameRead w1 p = frameRead w2 p) := by decide

theorem witness_same_configuration :
    stA ≠ stB ∧ stA.config = stB.config ∧ (∃ t, exec (.dec1 (.byte 0x21)) stA = .next t) ∧
      ∃ t, exec (.dec1 (.byte 0x21)) stB = .next t := ⟨by decide +kernel, rfl, ⟨_, rfl⟩, ⟨_, rfl⟩⟩

theorem witness_raised :
    ∃ t r, exec (.dec1 (.byte 0x31)) stA = .next t ∧ t.response = some r ∧
      r.info = some (.domain .first 2 "TypeMode" 3) := ⟨_, _, rfl, rfl, rfl⟩

/-- The exception: VALID. -/
theorem witness_raised_valid :
    ∃ t r, exec (.valid v63) stA = .next t ∧ t.response = some r ∧ r.info = some (.checksum 0x013B 0x013A) ∧
      r.ok = some false := ⟨_, _, rfl, rfl, rfl, rfl⟩

theorem witness_step_runs :
    (stA.withFetchWord 80 0x250013880000000300C3).request =
      some (.reqFrame (frameOf 0x25 0 0x13 0x88 0 0 0 3 0 0xC3)) ∧
      decodeRequest (.reqFrame (frameOf 0x25 0 0x13 0x88 0 0 0 3 0 0xC3)) = .instr (.setflow 0x1388 3) := by decide

theorem witness_reserved_selectors :
    (stA.withFetchWord 8 8).request = some (.unitOp 8 {}) ∧ 8 ≤ (8 : BitVec 4).toNat ∧
      (stA.withFetchWord 8 15).request = some (.unitOp 15 {}) ∧ 8 ≤ (15 : BitVec 4).toNat := by decide

theorem witness_well_formed : Instr.wf (.baud 38400 3) = true ∧ Instr.wf (.baud 38401 3) = false := by decide

theorem witness_valid_frame :
    checksumOk (frameOf 0x23 0 0 1 0x01 0x23 0 3 0 0x4B) = true ∧
      decodeReqFrame (frameOf 0x23 0 0 1 0x01 0x23 0 3 0 0x4B) = .instr (.zeroset 0x0123 3) := by decide

theorem witness_response_requests :
    ({ stA with request := some (.rspLayout .getstate v60) } : State).request = some (.rspLayout .getstate v60) ∧
    ({ stA with request := some (.rspLayout .addrdef v60) } : State).request = some (.rspLayout .addrdef v60) ∧
    ({ stA with request := some (.rspLayout .rdflow v60) } : State).request = some (.rspLayout .rdflow v60) ∧
    ({ stA with request := some (.rspLayout .zeroget v60) } : State).request = some (.rspLayout .zeroget v60) ∧
    ({ stA with request := some (.rspLayout .baud v60) } : State).request = some (.rspLayout .baud v60) ∧
    ReqLayout.baud ∈ [ReqLayout.regime, .setflow, .recov, .plug, .readdr, .baud, .zeroset] := by decide +kernel

theorem witness_reset_variants : (HostState.fresh hostA).params.variant = .a ∧ (HostState.fresh hostB).params.variant = .b :=
  ⟨rfl, rfl⟩

/-- A host about to write a sound frame, with an answer waiting: sound, in step, and its step answers. -/
def writing : State :=
  { inPhase (.writing { call := .readFlow, leg := .only, sent := .rdflow } (frameOf 0x11 0 0 0 0 0 0 3 0 0x14)) with
    host := { (inPhase (.writing { call := .readFlow, leg := .only, sent := .rdflow }
      (frameOf 0x11 0 0 0 0 0 0 3 0 0x14))).host with inbox := [{}] } }

theorem witness_sound_step : writing.Sound ∧ ∃ t, step writing = .next t := by
  refine ⟨⟨fun r h => absurd (show (none : Option Response) = some r from h) (by simp), fun f h => ?_,
    fun f h => absurd (show TransportCall.write f ∈ [] from h) (by simp)⟩, _, rfl⟩
  have e : some (frameOf 0x11 0 0 0 0 0 0 3 0 0x14) = some f := h
  rw [← Option.some.inj e]
  decide

/-- A response waiting is sound too. -/
theorem witness_sound_response : State.Sound { stA with response := some { byte := some 0x27 } } := by
  refine ⟨fun r h => ?_, fun f h => absurd (show (none : Option Frame) = some f from h) (by simp),
    fun f h => absurd (show TransportCall.write f ∈ [] from h) (by simp)⟩
  cases h
  exact ⟨by simp [Response.WellFormed], nofun, fun b h => by cases h; decide, nofun, nofun, nofun, nofun⟩

theorem witness_in_step : writing.InStep ∧ ∃ t, step writing = .next t := ⟨rfl, _, rfl⟩

/-- Waiting for the unit's answer to a read of two registers. -/
theorem witness_in_step_reading :
    State.InStep { stB with host := { stB.host with phase := .regReading .getState 0x0002 1 [(0x0003, 1)] [] } } :=
  ⟨by decide, by decide⟩

theorem witness_identity_changes :
    ∃ t, step { inPhase (.parsing { call := .identify, leg := .only, sent := .addrdef }) with
        response := some { address := some 9, serial := some 0x0102 } } = .next t ∧ t.host.address ≠ some 3 :=
  ⟨_, rfl, by decide⟩

/-- A redefinition under `readdressUpdates` changes the address. -/
theorem witness_identity_redefined :
    ∃ t, step { inPhase (.parsing { call := .redefineAddress 5, leg := .only, sent := .readdr }) with
        response := some {}
        host := { (inPhase (.parsing { call := .redefineAddress 5, leg := .only, sent := .readdr })).host with
          params := { hostA with readdressUpdates := true } } } = .next t ∧ t.host.address ≠ some 3 :=
  ⟨_, rfl, by decide⟩

theorem witness_to_engineering : (0 : Rat) < 100 ∧ (0 : Rat) = 0 := by decide +kernel

theorem witness_flow_round_trip :
    (0 : Rat) < 100 ∧ (-100 : Rat) ≤ -100 ∧ (-100 : Rat) ≤ 100 ∧ (-100 : Rat) ≤ 100 ∧ (100 : Rat) ≤ 100 := by decide +kernel

/-- An idle host with one call to make: identity known, or unset. -/
def calling (c : Call) : State := { inPhase .idle with host := { (inPhase .idle).host with calls := [c] } }
def callingUnset (c : Call) : State := { stA with host := { stA.host with calls := [c] } }

theorem witness_identify_known :
    (calling .identify).request = none ∧ (calling .identify).host.phase = .idle ∧
      (calling .identify).host.calls = .identify :: [] ∧ (calling .identify).host.address = some 3 := ⟨rfl, rfl, rfl, rfl⟩

theorem witness_identify_unset :
    (callingUnset .identify).request = none ∧ (callingUnset .identify).host.phase = .idle ∧
      (callingUnset .identify).host.calls = .identify :: [] ∧ (callingUnset .identify).host.address = none ∧
      (callingUnset .identify).host.params.variant = .a := ⟨rfl, rfl, rfl, rfl, rfl⟩

/-- A host waiting for the fields of an address-define response. -/
def defining (r : Response) : State :=
  { stA with
    response := some r
    host := { stA.host with phase := .parsing { call := .identify, leg := .only, sent := .addrdef } } }

theorem witness_identify_parsed :
    (defining { address := some 3, serial := some 7 }).request = none ∧
      (∃ x, (defining { address := some 3, serial := some 7 }).host.phase = .parsing x ∧ x.call = .identify) ∧
      ∃ r, (defining { address := some 3, serial := some 7 }).response = some r ∧ r.info = none ∧
        r.address = some 3 ∧ r.serial = some 7 := ⟨rfl, ⟨_, rfl, rfl⟩, _, rfl, rfl, rfl, rfl⟩

theorem witness_identify_failed :
    (defining (.raised (.checksum 1 2))).request = none ∧
      (∃ x, (defining (.raised (.checksum 1 2))).host.phase = .parsing x) ∧
      ∃ r, (defining (.raised (.checksum 1 2))).response = some r ∧ r.info = some (.checksum 1 2) :=
  ⟨rfl, ⟨_, rfl⟩, _, rfl, rfl⟩

theorem witness_unidentified :
    (callingUnset (.setBaudrate 4800)).request = none ∧ (callingUnset (.setBaudrate 4800)).host.phase = .idle ∧
      (callingUnset (.setBaudrate 4800)).host.calls = .setBaudrate 4800 :: [] ∧
      (callingUnset (.setBaudrate 4800)).host.address = none ∧ Call.setBaudrate 4800 ≠ .identify :=
  ⟨rfl, rfl, rfl, rfl, nofun⟩

/-- Its clauses: a good argument, an operation without one, and a bad argument. -/
theorem witness_unidentified_good :
    (callingUnset (.setBaudrate 9600)).host.calls = .setBaudrate 9600 :: [] ∧
      (callingUnset (.setBaudrate 9600)).host.address = none ∧
      badArgument (callingUnset (.setBaudrate 9600)).host.params (.setBaudrate 9600) = none ∧
      (9600 : Int) ∈ [9600, 19200, 38400] ∧ (callingUnset .readFlow).host.params.maxFlow ≠ 0 :=
  ⟨rfl, rfl, rfl, by decide, by decide +kernel⟩

theorem witness_unidentified_no_argument :
    (callingUnset .getState).host.calls = .getState :: [] ∧ (callingUnset .getState).host.address = none ∧
      (∀ rate, Call.getState = .setBaudrate rate → rate ∈ [9600, 19200, 38400]) ∧ Call.getState ≠ .readFlow ∧
      (∀ f, Call.getState = .writeFlow f → f = 0) := ⟨rfl, rfl, nofun, nofun, nofun⟩

theorem witness_unidentified_bad :
    badArgument (callingUnset (.setBaudrate 4800)).host.params (.setBaudrate 4800) =
      some (.unit (.validation 4800)) := rfl

theorem witness_validation_rate :
    (calling (.setBaudrate 4800)).request = none ∧ (calling (.setBaudrate 4800)).host.phase = .idle ∧
      (calling (.setBaudrate 4800)).host.calls = .setBaudrate 4800 :: [] ∧
      (calling (.setBaudrate 4800)).host.address = some 3 ∧ (4800 : Int) ∉ [9600, 19200, 38400] := ⟨rfl, rfl, rfl, rfl, by decide⟩

/-- The same with `max_flow` zero. -/
def callingZero (c : Call) : State :=
  { calling c with host := { (calling c).host with params := { hostA with maxFlow := 0 } } }

theorem witness_validation_max_flow :
    (callingZero .readFlow).request = none ∧ (callingZero .readFlow).host.phase = .idle ∧
      (callingZero .readFlow).host.calls = .readFlow :: [] ∧ (callingZero .readFlow).host.address = some 3 ∧
      (callingZero .readFlow).host.params.maxFlow = 0 ∧
      (callingZero (.writeFlow 1)).host.params.maxFlow = 0 ∧ (1 : Rat) ≠ 0 :=
  ⟨rfl, rfl, rfl, rfl, rfl, rfl, by decide +kernel⟩

/-- A host waiting for ten bytes, with the given answers to come. -/
def reading (inbox : List TransportReply) : State :=
  { inPhase (.reading { call := .readFlow, leg := .only, sent := .rdflow }) with
    host := { (inPhase (.reading { call := .readFlow, leg := .only, sent := .rdflow })).host with inbox := inbox } }

/-- No answer; and a failing answer; the call is the read of ten bytes. -/
theorem witness_transport :
    (reading []).request = none ∧
      (∃ x, (reading []).host.phase = .reading x ∧ TransportCall.read 10 = .read 10) ∧ (reading []).host.inbox = [] ∧
      (reading [{ error := some 7 }]).request = none ∧
      (∃ x, (reading [{ error := some 7 }]).host.phase = .reading x ∧ TransportCall.read 10 = .read 10) ∧
      (reading [{ error := some 7 }]).host.inbox = { error := some 7 } :: [] :=
  ⟨rfl, ⟨_, rfl, rfl⟩, rfl, rfl, ⟨_, rfl, rfl⟩, rfl⟩

/-- The other three phases that wait for the transport, each with its call. -/
theorem witness_transport_phases :
    (writing.request = none ∧ ∃ x f, writing.host.phase = .writing x f ∧
      TransportCall.write (frameOf 0x11 0 0 0 0 0 0 3 0 0x14) = .write f) ∧
    (∃ c a n more got, (inPhase (.regReading .readFlow 0x0005 1 [] [])).host.phase = .regReading c a n more got ∧
      TransportCall.readRegisters 0x0005 1 = .readRegisters a n) ∧
    (∃ c leg a v,
      (inPhase (.regWriting (.writeFlow 0) .writeBack 0x0002 0x22)).host.phase = .regWriting c leg a v ∧
      TransportCall.writeRegister 0x0002 0x22 = .writeRegister a v) :=
  ⟨⟨rfl, _, _, rfl, rfl⟩, ⟨_, _, _, _, _, rfl, rfl⟩, ⟨_, _, _, _, rfl, rfl⟩⟩

/-- The third clause of the exchange: ten bytes have come. -/
theorem witness_exchange_read :
    (reading [{ frame := v60 }]).request = none ∧
      (reading [{ frame := v60 }]).host.phase = .reading { call := .readFlow, leg := .only, sent := .rdflow } ∧
      (reading [{ frame := v60 }]).host.inbox = { frame := v60 } :: [] := ⟨rfl, rfl, rfl⟩

theorem witness_exchange_steps :
    writing.request = none ∧
      writing.host.phase =
        .writing { call := .readFlow, leg := .only, sent := .rdflow } (frameOf 0x11 0 0 0 0 0 0 3 0 0x14) ∧
      writing.host.inbox = {} :: [] ∧ ({} : TransportReply).error = none ∧
      (∃ s : State, s.request = none ∧
        s.host.phase = .building { call := .readFlow, leg := .only, sent := .rdflow } ∧
        s.response = some { frame := some (frameOf 0x11 0 0 0 0 0 0 3 0 0x14) }) :=
  ⟨rfl, rfl, rfl, rfl,
    { inPhase (.building { call := .readFlow, leg := .only, sent := .rdflow }) with
      response := some { frame := some (frameOf 0x11 0 0 0 0 0 0 3 0 0x14) } }, rfl, rfl, rfl⟩

/-- UPD1's answer, waiting to be taken in a writeFlow. -/
def coded (s : State) (flow : Rat) (w : Bool) : State :=
  { s with
    response := some { byte := some 0x22, writeNeeded := some w }
    host := { s.host with phase := .coding (.writeFlow flow), inbox := [{}] } }

/-- No difference: a zero flow; 50 at max_flow 100, in variant a with an address and in variant b. -/
theorem witness_write_flow_no_difference :
    (coded stA 0 false).request = none ∧ (coded stA 0 false).host.phase = .coding (.writeFlow 0) ∧
      (coded stA 0 false).response = some { byte := some 0x22, writeNeeded := some false } ∧
      (50 : Rat) ≠ 0 ∧ fromEngineering 50 (coded stB 50 false).host.params.maxFlow = .ok 0x1388 ∧
      (coded (inPhase .idle) 50 false).host.params.variant = .a ∧ (coded (inPhase .idle) 50 false).host.address = some 3 ∧
      (coded stB 50 false).host.params.variant = .b ∧ (coded stB 50 false).host.phase = .coding (.writeFlow 50) :=
  ⟨rfl, rfl, rfl, by decide +kernel, by decide +kernel, rfl, rfl, rfl, rfl⟩

/-- A difference: variant b, and variant a under either setting of the write-back. -/
theorem witness_write_half :
    (coded stB 0 true).request = none ∧ (coded stB 0 true).host.params.variant = .b ∧
      (coded stB 0 true).host.phase = .coding (.writeFlow 0) ∧
      (coded stB 0 true).response = some { byte := some 0x22, writeNeeded := some true } ∧
      (coded (inPhase .idle) 50 true).host.params.variant = .a ∧
      (coded (inPhase .idle) 50 true).host.address = some 3 ∧
      (coded (inPhase .idle) 50 true).host.params.writeBack = .plug ∧
      (∃ p : HostParams, p.variant = .a ∧ p.writeBack = .given (.regime, {}) (.recov, {})) :=
  ⟨rfl, rfl, rfl, rfl, rfl, rfl, rfl, { hostA with writeBack := .given (.regime, {}) (.recov, {}) }, rfl, rfl⟩

/-- The write half or the setpoint under way in variant b, its write about to be answered. -/
def regWriting (flow : Rat) (leg : Leg) (a v : Half) : State :=
  { stB with host := { stB.host with phase := .regWriting (.writeFlow flow) leg a v, inbox := [{}] } }

theorem witness_register_written :
    (regWriting 0 .writeBack 0x0002 0x22).request = none ∧
      (regWriting 0 .writeBack 0x0002 0x22).host.params.variant = .b ∧
      (regWriting 0 .writeBack 0x0002 0x22).host.phase = .regWriting (.writeFlow 0) .writeBack 0x0002 0x22 ∧
      (regWriting 0 .writeBack 0x0002 0x22).host.inbox = {} :: [] ∧ ({} : TransportReply).error = none ∧
      fromEngineering 50 (regWriting 50 .writeBack 0x0002 0x20).host.params.maxFlow = .ok 0x1388 ∧
      (regWriting 50 (.setpoint 0x1388) 0x0004 0x1388).host.phase =
        .regWriting (.writeFlow 50) (.setpoint 0x1388) 0x0004 0x1388 :=
  ⟨rfl, rfl, rfl, rfl, rfl, by decide +kernel, rfl⟩

/-- The write half or the setpoint acknowledged in variant a. -/
def acked (flow : Rat) (leg : Leg) (sent : ReqLayout) : State :=
  { inPhase (.parsing { call := .writeFlow flow, leg := leg, sent := sent }) with response := some {} }

theorem witness_write_acknowledged :
    (acked 50 .writeBack .plug).request = none ∧ (acked 50 .writeBack .plug).host.params.variant = .a ∧
      (∃ x, (acked 50 .writeBack .plug).host.phase = .parsing x ∧ x.call = .writeFlow 50 ∧ x.leg = .writeBack) ∧
      (acked 50 .writeBack .plug).response = some {} ∧ ({} : Response).info = none ∧
      fromEngineering 50 (acked 50 .writeBack .plug).host.params.maxFlow = .ok 0x1388 ∧
      (acked 50 .writeBack .plug).host.address = some 3 ∧
      ∃ x, (acked 50 (.setpoint 0x1388) .setflow).host.phase = .parsing x ∧ x.call = .writeFlow 50 ∧
        x.leg = .setpoint 0x1388 :=
  ⟨rfl, rfl, ⟨_, rfl, rfl, rfl⟩, rfl, rfl, by decide +kernel, rfl, _, rfl, rfl, rfl⟩

/-- P2 in variant a, by R214's reading: a write half for CLOSED is a PLUG request with value 2. -/
theorem test_host_write_back_a :
    (stepped (coded (inPhase .idle) 0 true)).map (fun t => t.request) =
      some (some (.reqLayout .plug { mode := 2, addr := 3 })) := by decide +kernel

end Sys2Proof.Tests
end

section
/-! SUPPORT. Proofs of 00_scope. The host and the unit stay in step: the unit's answer holds what the waiting host takes
from it, every move of the host puts it in step again, and so no run from a state in step ends in a fault (R15). A step
with a request present is exec of the instruction it decodes to (R7). -/

namespace Sys2Proof.Machine

/-! ### Outcomes that stay in step -/

/-- The outcome is no fault, and its next state, if it has one, is in step. -/
def Outcome.InStep : HostOutcome → Prop
  | .next t => t.InStep
  | .fault _ => False
  | .refused _ => True

@[simp] theorem Outcome.inStep_next {t : State} (h : t.InStep) : Outcome.InStep (.next t) := h
@[simp] theorem Outcome.inStep_refused (e : Refusal) : Outcome.InStep (.refused e) := trivial
@[simp] theorem Outcome.not_inStep_fault (e : Fault) : ¬ Outcome.InStep (.fault e) := id

/-! ### The moves that put the host in step -/

section

variable {s : State}

@[simp] theorem finish_inStep (r : CallResult) : (s.finish r).InStep := trivial

@[simp] theorem Outcome.inStep_finish (r : CallResult) : Outcome.InStep (.next (s.finish r)) :=
  Outcome.inStep_next (finish_inStep r)

theorem await_writing_inStep {x : Exchange} (hx : x.Coherent) (f : Frame) : (s.await (.writing x f)).InStep := hx

theorem await_reading_inStep {x : Exchange} (hx : x.Coherent) : (s.await (.reading x)).InStep := hx

theorem await_regWriting_inStep (c : Call) (leg : Leg) (a v : Half) : (s.await (.regWriting c leg a v)).InStep := trivial

theorem await_regReading_inStep {c : Call} {n : Nat} {rest : List (Half × Nat)} {got : List Half} (hpos : 0 < c.registers)
    (hn : got.length + registersToCome (n :: rest.map Prod.snd) = c.registers) (a : Half) :
    (s.await (.regReading c a n rest got)).InStep := ⟨hpos, hn⟩

theorem ask_building_inStep {x : Exchange} (hx : x.Coherent) (a : ReqArgs) :
    (s.ask (.reqLayout x.sent a) (.building x)).InStep := ⟨hx, .inl ⟨a, rfl⟩⟩

theorem ask_parsing_inStep {x : Exchange} (hx : x.Coherent) (f : Frame) :
    (s.ask (.rspLayout x.sent f) (.parsing x)).InStep := ⟨hx, .inl ⟨f, rfl⟩⟩

theorem ask_coding_inStep {c : Call} {op : BitVec 4} (h : c.codecOp = some op) (y : Slots) :
    (s.ask (.unitOp op y) (.coding c)).InStep := ⟨op, h, .inl ⟨y, rfl⟩⟩

/-! ### What the host takes from a response -/

/-- The response holds what the host takes from it in this phase: an error, or every slot the phase reads. A phase that waits
for no response takes any. -/
def Phase.Takes (r : Response) : Phase → Prop
  | .building _ => r.info.isSome = true ∨ r.frame.isSome = true
  | .parsing x => r.info.isSome = true ∨ r.Parsed x.sent.response
  | .coding c => r.info.isSome = true ∨ r.Coded c
  | .idle | .writing _ _ | .reading _ | .regReading _ _ _ _ _ | .regWriting _ _ _ _ => True

theorem takes_raised (e : UnitError) (ph : Phase) : ph.Takes (.raised e) := by
  cases ph <;> simp [Phase.Takes]

/-- A response the host takes keeps it in step. -/
theorem answer_inStep {r : Response} (h : s.InStep) (hr : s.host.phase.Takes r) : (s.answer r).InStep := by
  unfold State.InStep at h ⊢
  rw [answer_host]
  cases hp : s.host.phase <;> rw [hp] at h hr
  case building x => exact ⟨h.1, .inr ⟨rfl, r, rfl, hr⟩⟩
  case parsing x => exact ⟨h.1, .inr ⟨rfl, r, rfl, hr⟩⟩
  case coding c =>
    obtain ⟨op, hop, -⟩ := h
    exact ⟨op, hop, .inr ⟨rfl, r, rfl, hr⟩⟩
  all_goals exact h

/-! ### The unit's half: it answers what the host waits for -/

/-- A result is an error or fills its slots. -/
theorem ofResult_raised_or {α : Type} {r : Result α} {fill : α → Response} {P : Response → Prop} (h : ∀ v, P (fill v)) :
    (Response.ofResult r fill).info.isSome = true ∨ P (.ofResult r fill) := by
  cases r with
  | ok v => exact .inr (h v)
  | error e => exact .inl rfl

theorem responseOf_layout_built (cfg : UnitConfig) (l : ReqLayout) (a : ReqArgs) :
    (responseOf cfg (decodeReqLayout l a)).info.isSome = true ∨
      (responseOf cfg (decodeReqLayout l a)).frame.isSome = true := by
  rw [responseOf_layout]
  exact ofResult_raised_or (P := fun r => r.frame.isSome = true) fun _ => rfl

theorem responseOf_rspLayout_parsed (cfg : UnitConfig) (sent : ReqLayout) (f : Frame) :
    (responseOf cfg (decodeRspLayout sent f)).info.isSome = true ∨
      (responseOf cfg (decodeRspLayout sent f)).Parsed sent.response := by
  unfold decodeRspLayout
  cases sent.response <;> exact ofResult_raised_or fun _ => by simp [Response.Parsed]

theorem responseOf_codecOp_coded (cfg : UnitConfig) {c : Call} {op : BitVec 4} {y : Slots} {i : Instr}
    (hc : c.codecOp = some op) (hi : decodeUnitOp op y = .instr i) :
    (responseOf cfg i).info.isSome = true ∨ (responseOf cfg i).Coded c := by
  cases c with
  | getState | getWritableState | writeFlow _ =>
    cases hc
    cases hi
    exact ofResult_raised_or fun _ => by simp [Response.Coded]
  | identify | setRegime _ _ | readFlow | setZero _ | getZero | redefineAddress _ | setRecoveryMode _ | setPlugMode _
  | setBaudrate _ => cases hc

theorem takes_of_served {q : Request} {i : Instr} (h : s.InStep) (hq : s.request = some q)
    (hi : decodeRequest q = .instr i) : s.host.phase.Takes (responseOf s.config i) := by
  unfold State.InStep at h
  cases hp : s.host.phase <;> rw [hp] at h
  case building x =>
    obtain ⟨-, ⟨a, ha⟩ | ⟨hn, -⟩⟩ := h
    · cases hq.symm.trans ha
      cases hi
      exact responseOf_layout_built _ _ _
    · simp [hn] at hq
  case parsing x =>
    obtain ⟨-, ⟨f, hf⟩ | ⟨hn, -⟩⟩ := h
    · cases hq.symm.trans hf
      cases hi
      exact responseOf_rspLayout_parsed _ _ _
    · simp [hn] at hq
  case coding c =>
    obtain ⟨op, hop, ⟨y, hy⟩ | ⟨hn, -⟩⟩ := h
    · cases hq.symm.trans hy
      exact responseOf_codecOp_coded _ hop hi
    · simp [hn] at hq
  all_goals trivial

theorem serve_of_instr {q : Request} {i : Instr} (hi : decodeRequest q = .instr i) : serve q s = exec i s := by
  rw [serve, hi]

theorem serve_inStep {q : Request} (h : s.InStep) (hq : s.request = some q) : Outcome.InStep (serve q s) := by
  unfold serve
  split
  next i hi =>
    rw [exec_eq_answer]
    exact Outcome.inStep_next (answer_inStep h (takes_of_served h hq hi))
  next op _ => exact Outcome.inStep_next (answer_inStep h (takes_raised _ _))
  next e _ => exact Outcome.inStep_refused _

/-! ### The host's half: an exchange -/

theorem beginExchange_inStep {c : Call} {leg : Leg}
    (h : Exchange.Coherent { call := c, leg := leg, sent := (legRequest s.host.params c leg).1 }) :
    (beginExchange c leg s).InStep := by
  unfold beginExchange
  cases addressByte s c with
  | none => exact finish_inStep _
  | some a => exact ask_building_inStep h _

@[simp] theorem askUpdate_inStep (flow : Rat) (v : StatusValue) : (askUpdate flow v s).InStep := ask_coding_inStep rfl _

@[simp] theorem afterValve_inStep (flow : Rat) : (afterValve flow s).InStep := by
  unfold afterValve
  split
  · exact finish_inStep _
  · split
    · exact finish_inStep _
    · split
      · exact beginExchange_inStep trivial
      · exact await_regWriting_inStep _ _ _ _

@[simp] theorem writeHalf_inStep (flow : Rat) (b : Byte) (needed : Bool) : (writeHalf flow b needed s).InStep := by
  unfold writeHalf
  split
  · split
    · exact beginExchange_inStep trivial
    · exact await_regWriting_inStep _ _ _ _
  · exact afterValve_inStep _

theorem afterRegWrite_inStep (c : Call) (leg : Leg) : (afterRegWrite c leg s).InStep := by
  unfold afterRegWrite
  split
  · exact afterValve_inStep _
  · exact finish_inStep _

theorem onBuilt_inStep {x : Exchange} {r : Response} (hx : x.Coherent) (hr : (Phase.building x).Takes r) :
    Outcome.InStep (onBuilt x r s) := by
  unfold onBuilt
  split
  · exact Outcome.inStep_finish _
  · exact Outcome.inStep_next (await_writing_inStep hx _)
  next hi hf => simp [Phase.Takes, hi, hf] at hr

theorem onParsed_inStep {x : Exchange} {r : Response} (hx : x.Coherent) (hr : (Phase.parsing x).Takes r) :
    Outcome.InStep (onParsed x r s) := by
  obtain ⟨c, leg, sent⟩ := x
  unfold onParsed
  cases hi : r.info with
  | some e => exact Outcome.inStep_finish _
  | none =>
    have hp : r.Parsed sent.response := by simpa [Phase.Takes, hi] using hr
    cases c with
    | identify =>
      obtain rfl : sent = .addrdef := hx
      obtain ⟨ha, hn⟩ := hp
      obtain ⟨a, ha⟩ := Option.isSome_iff_exists.mp ha
      obtain ⟨n, hn⟩ := Option.isSome_iff_exists.mp hn
      simp [ha, hn]
    | getState =>
      obtain rfl : sent = .getstate := hx
      obtain ⟨h1, h2⟩ := hp
      obtain ⟨v1, h1⟩ := Option.isSome_iff_exists.mp h1
      obtain ⟨v2, h2⟩ := Option.isSome_iff_exists.mp h2
      simp only [h1, h2]
      exact ask_coding_inStep rfl _
    | getWritableState =>
      obtain rfl : sent = .getstate := hx
      obtain ⟨v1, h1⟩ := Option.isSome_iff_exists.mp hp.1
      simp only [h1]
      exact ask_coding_inStep rfl _
    | readFlow =>
      obtain rfl : sent = .rdflow := hx
      obtain ⟨hf, hg⟩ := hp
      obtain ⟨f, hf⟩ := Option.isSome_iff_exists.mp hf
      obtain ⟨g, hg⟩ := Option.isSome_iff_exists.mp hg
      simp [hf, hg]
    | getZero =>
      obtain rfl : sent = .zeroget := hx
      obtain ⟨v, hv⟩ := Option.isSome_iff_exists.mp hp
      simp [hv]
    | writeFlow flow =>
      cases leg with
      | only | stateRead =>
        obtain rfl : sent = .getstate := hx
        obtain ⟨v1, h1⟩ := Option.isSome_iff_exists.mp hp.1
        simp [h1]
      | writeBack => exact afterValve_inStep _
      | setpoint _ => exact Outcome.inStep_finish _
    | redefineAddress _ | setRegime _ _ | setZero _ | setRecoveryMode _ | setPlugMode _ | setBaudrate _ =>
      exact Outcome.inStep_finish _

theorem onCoded_inStep {c : Call} {r : Response} {op : BitVec 4} (hc : c.codecOp = some op)
    (hr : (Phase.coding c).Takes r) : Outcome.InStep (onCoded c r s) := by
  unfold onCoded
  cases hi : r.info with
  | some e => exact Outcome.inStep_finish _
  | none =>
    have hp : r.Coded c := by simpa [Phase.Takes, hi] using hr
    cases c with
    | getState | getWritableState =>
      obtain ⟨fs, hf⟩ := Option.isSome_iff_exists.mp hp
      simp [hf]
    | writeFlow flow =>
      obtain ⟨hb, hw⟩ := hp
      obtain ⟨b, hb⟩ := Option.isSome_iff_exists.mp hb
      obtain ⟨w, hw⟩ := Option.isSome_iff_exists.mp hw
      simp [hb, hw]
    | identify | setRegime _ _ | readFlow | setZero _ | getZero | redefineAddress _ | setRecoveryMode _ | setPlugMode _
    | setBaudrate _ => cases hc

/-! ### The host's half: the transport -/

theorem transport_inStep {c : TransportCall} {k : TransportReply → State → State} (h : s.InStep)
    (hk : ∀ reply s', (k reply s').InStep) : (s.transport c k).InStep := by
  obtain ⟨-, e⟩ | ⟨reply, more, -, ⟨d, -, e⟩ | ⟨-, e⟩⟩ := transport_cases s c k <;> rw [e]
  · exact h
  · exact finish_inStep _
  · exact hk _ _

theorem registersToCome_cons (n : Nat) (counts : List Nat) :
    registersToCome (n :: counts) = min n 2 + registersToCome counts := rfl

/-- With as many registers as the call needs, the call goes on. -/
theorem onRegisters_inStep {c : Call} {regs : List Half} (hpos : 0 < c.registers) (hn : regs.length = c.registers) :
    Outcome.InStep (onRegisters c regs s) := by
  cases c with
  | getState =>
    obtain ⟨v1, v2, rfl⟩ := List.length_eq_two.mp hn
    exact ask_coding_inStep rfl _
  | getWritableState =>
    obtain ⟨v1, rfl⟩ := List.length_eq_one_iff.mp hn
    exact ask_coding_inStep rfl _
  | writeFlow flow =>
    obtain ⟨v1, rfl⟩ := List.length_eq_one_iff.mp hn
    exact askUpdate_inStep _ _
  | readFlow =>
    obtain ⟨v, rfl⟩ := List.length_eq_one_iff.mp hn
    exact Outcome.inStep_finish _
  | identify | setRegime _ _ | setZero _ | getZero | redefineAddress _ | setRecoveryMode _ | setPlugMode _
  | setBaudrate _ => cases hpos

theorem readRegs_inStep {c : Call} {a : Half} {n : Nat} {rest : List (Half × Nat)} {got : List Half} (h : s.InStep)
    (hpos : 0 < c.registers) (hn : got.length + registersToCome (n :: rest.map Prod.snd) = c.registers) :
    Outcome.InStep (readRegs c a n rest got s) := by
  unfold readRegs
  split
  · exact h
  next t inbox _ =>
    have hlen : (got ++ [t.reg0, t.reg1].take n).length + registersToCome (rest.map Prod.snd) = c.registers := by
      simpa [registersToCome_cons, Nat.add_assoc] using hn
    simp only
    split
    · exact Outcome.inStep_finish _
    · split
      · exact Outcome.inStep_next (await_regReading_inStep hpos hlen _)
      · exact onRegisters_inStep hpos hlen

/-! ### The host's half: the start of a call -/

/-- The reads a call begins with in variant b bring the registers it needs. -/
theorem registersToCome_registerReads (p : HostParams) (c : Call) :
    registersToCome ((registerReads p c).map Prod.snd) = c.registers := by
  cases c with
  | getState => cases h : p.splitFlagReads <;> simp [registerReads, h, registersToCome, Call.registers]
  | _ => rfl

theorem registers_pos_of_registerReads {p : HostParams} {c : Call} (h : registerReads p c ≠ []) : 0 < c.registers := by
  cases c with
  | getState | getWritableState | writeFlow _ | readFlow => simp [Call.registers]
  | identify | setRegime _ _ | setZero _ | getZero | redefineAddress _ | setRecoveryMode _ | setPlugMode _
  | setBaudrate _ => exact absurd rfl h

theorem firstLeg_coherent (p : HostParams) (c : Call) :
    Exchange.Coherent { call := c, leg := firstLeg c, sent := (legRequest p c (firstLeg c)).1 } := by
  cases c <;> trivial

theorem launch_inStep (c : Call) : Outcome.InStep (launch c s) := by
  unfold launch
  split
  · exact beginExchange_inStep (firstLeg_coherent _ c)
  · have hn := registersToCome_registerReads s.host.params c
    have hpos := registers_pos_of_registerReads (p := s.host.params) (c := c)
    split
    · exact Outcome.inStep_refused _
    next a n more hr =>
      rw [hr] at hn hpos
      exact Outcome.inStep_next (await_regReading_inStep (hpos (List.cons_ne_nil _ _)) (by simpa using hn) a)

theorem startCall_inStep (c : Call) : Outcome.InStep (startCall c s) := by
  unfold startCall
  split
  · exact Outcome.inStep_finish _
  · split
    · exact Outcome.inStep_finish _
    · split
      · exact Outcome.inStep_refused _
      · exact launch_inStep _

/-! ### The step and the run -/

/-- A host in step that waits for a response, with no request left, finds one that it takes. -/
theorem withResponse_inStep {k : Response → HostOutcome} {P : Response → Prop}
    (h : ∃ r, s.response = some r ∧ P r) (hk : ∀ r, P r → Outcome.InStep (k r)) : Outcome.InStep (withResponse s k) := by
  obtain ⟨r, hr, hp⟩ := h
  simpa [withResponse, hr] using hk r hp

theorem hostStep_inStep (h : s.InStep) (hq : s.request = none) : Outcome.InStep (hostStep s) := by
  have hs := h
  unfold State.InStep at h
  unfold hostStep
  cases hp : s.host.phase <;> simp only [hp, hq, reduceCtorEq, exists_false, false_or, true_and] at h ⊢
  case idle =>
    split
    · exact hs
    · exact startCall_inStep _
  case building x => exact withResponse_inStep h.2 fun r hr => onBuilt_inStep h.1 hr
  case writing x f => exact transport_inStep hs fun _ _ => await_reading_inStep h
  case reading x => exact transport_inStep hs fun t _ => ask_parsing_inStep h t.frame
  case parsing x => exact withResponse_inStep h.2 fun r hr => onParsed_inStep h.1 hr
  case coding c =>
    obtain ⟨op, hop, hr⟩ := h
    exact withResponse_inStep hr fun r hr => onCoded_inStep hop hr
  case regReading c a n rest got => exact readRegs_inStep hs h.1 h.2
  case regWriting c leg a v => exact transport_inStep hs fun _ _ => afterRegWrite_inStep c leg

theorem step_of_request {q : Request} (hq : s.request = some q) : step s = serve q s := by rw [step, hq]

theorem step_of_no_request (hq : s.request = none) : step s = hostStep s := by rw [step, hq]

theorem step_inStep (h : s.InStep) : Outcome.InStep (step s) := by
  cases hq : s.request with
  | some q => exact step_of_request hq ▸ serve_inStep h hq
  | none => exact step_of_no_request hq ▸ hostStep_inStep h hq

/-- Every run from a state in step ends in a state in step, or is refused by name. -/
theorem run_inStep (n : Nat) (h : s.InStep) : Outcome.InStep (Sys2Proof.core.run n s) := by
  induction n generalizing s with
  | zero => exact h
  | succ n ih =>
    have hs := step_inStep h
    cases ht : step s <;> rw [ht] at hs
    case next t =>
      rw [run_next Sys2Proof.core ht]
      exact ih hs
    case fault e => exact absurd hs (Outcome.not_inStep_fault e)
    case refused e =>
      rw [run_refused Sys2Proof.core ht]
      exact Outcome.inStep_refused e

end

/-! ### The obligations -/

/-- Settles O50, by induction on the length of the run: every step keeps the host and the unit in step. -/
theorem noRunFromAStateInStepFaults : Obligations.NoRunFromAStateInStepFaults := by
  intro n s h e he
  exact Outcome.not_inStep_fault e (he ▸ run_inStep n h)

/-- Settles O38: with a request present the step serves it, and to serve a request that decodes is exec. -/
theorem stepRunsTheDecodedInstruction : Obligations.StepRunsTheDecodedInstruction := by
  intro s q i hq hi
  rw [step_of_request hq, serve_of_instr hi]

end Sys2Proof.Machine
end

section
/-! SUPPORT. Proofs of 10_state. The unit answers a sound response to every instruction (R31, R33, R131, R135, R240). What one
step of the whole machine can do is said once, as `StepEffect`; that the configuration never changes (R21), that the identity
changes only by a validated exchange (R39), and that soundness is kept are read off it. -/

namespace Sys2Proof.Machine

section

variable {cfg : UnitConfig}

/-! ### Members and reserved bits -/

/-- The fields of a byte that decodes lie in their domains. -/
theorem inDomain_of_mem_fieldsOf {tab : Tab} {raw : Byte} (hd : Decodes (UnitConfig.table cfg tab) raw) {v : FieldValue}
    (hv : v ∈ fieldsOf (UnitConfig.table cfg tab) tab raw) : InDomain cfg v := by
  obtain ⟨k, hk⟩ := List.mem_iff_getElem?.mp hv
  rw [fieldsOf_getElem?] at hk
  obtain ⟨fs, hfs, rfl⟩ := Option.map_eq_some_iff.mp hk
  exact ⟨fs, hfs, hd fs (List.mem_of_getElem? hfs)⟩

theorem inDomain_of_decodeTable {tab : Tab} {raw : Byte} {out : List FieldValue}
    (h : decodeTable (UnitConfig.table cfg tab) tab raw = .ok out) : ∀ v ∈ out, InDomain cfg v := by
  obtain ⟨hd, rfl⟩ := decodeTable_ok h
  exact fun _ => inDomain_of_mem_fieldsOf hd

theorem inDomain_of_decodeFirst {raw : StatusValue} {out : List FieldValue} (h : decodeFirst cfg raw = .ok out) :
    ∀ v ∈ out, InDomain cfg v := inDomain_of_decodeTable (tab := .first) h

theorem inDomain_of_decodeSecond {raw : StatusValue} {out : List FieldValue} (h : decodeSecond cfg raw = .ok out) :
    ∀ v ∈ out, InDomain cfg v := inDomain_of_decodeTable (tab := .second) h

theorem inDomain_of_decodeWord {raw1 raw2 : StatusValue} {out : List FieldValue}
    (h : decodeWord cfg raw1 raw2 = .ok out) : ∀ v ∈ out, InDomain cfg v := by
  unfold decodeWord at h
  split at h
  · cases h
  next out1 h1 =>
    split at h <;> cases h
    next out2 h2 =>
      intro v hv
      obtain hv | hv := List.mem_append.mp hv
      · exact inDomain_of_decodeFirst h1 v hv
      · exact inDomain_of_decodeSecond h2 v hv

/-- The values of a byte's fields fit the table, where the byte decodes. -/
theorem fit_of_decodes {t : Table} {raw : Byte} (hd : Decodes t raw) : Fit t (t.map (extractField raw)) := by
  intro j fs v hfs hv
  simp only [List.getElem?_map, hfs, Option.map_some, Option.some.injEq] at hv
  exact hv ▸ hd fs (List.mem_of_getElem? hfs)

/-- One value replaced by a member of its field's domain: the values fit as before. -/
theorem Fit.set {t : Table} {vals : List Byte} {k : Nat} {fs : FieldSpec} {v : Byte} (h : Fit t vals)
    (hk : t[k]? = some fs) (hv : (memberOf fs.domain v).isSome = true) : Fit t (vals.set k v) := by
  intro j g w hg hw
  by_cases hj : k = j
  · subst hj
    obtain rfl : fs = g := Option.some.inj (hk.symm.trans hg)
    obtain ⟨-, rfl⟩ : k < vals.length ∧ v = w := by simpa [List.getElem?_set] using hw
    exact hv
  · rw [List.getElem?_set_ne hj] at hw
    exact h j g w hg hw

theorem pack_and_gap {seq : List FieldValue} (hf : Fit cfg.t1 (seq.map FieldValue.val)) :
    pack cfg.t1 seq &&& gap cfg.t1 = 0 := by
  rw [pack_eq_packedByte]
  exact packedByte_and_gap cfg.wf.1 hf

/-- An encoded byte has every reserved bit 0 (R31). -/
theorem encodeFirst_and_gap {seq : List FieldValue} {b : Byte} (h : encodeFirst cfg seq = .ok b) :
    b &&& gap cfg.t1 = 0 := by
  unfold encodeFirst at h
  split at h
  · cases h
  next hl =>
    split at h
    · cases h
    · split at h <;> cases h
      next hn =>
        refine pack_and_gap fun j fs w hfs hw => ?_
        rw [List.getElem?_map] at hw
        obtain ⟨v, hv, rfl⟩ := Option.map_eq_some_iff.mp hw
        exact (firstForeign_none (not_not.mp hl)).mp hn j fs v hfs hv

/-- An updated byte has every reserved bit 0 (R31, R107). -/
theorem updateFirst_and_gap {raw : StatusValue} {idx : Nat} {val : Byte} {bw : Byte × Bool}
    (h : updateFirst cfg raw idx val = .ok bw) : bw.1 &&& gap cfg.t1 = 0 := by
  unfold updateFirst at h
  split at h
  · cases h
  next fs hfs =>
    split at h
    · cases h
    next m hm =>
      split at h <;> cases h
      next cur hcur =>
        obtain ⟨hd, rfl⟩ := decodeTable_ok hcur
        refine pack_and_gap ?_
        rw [List.map_set, fieldsOf_vals]
        exact (fit_of_decodes hd).set hfs (by simp [hm])

/-! ### Every response of the unit is sound -/

theorem raised_sound (e : UnitError) : (Response.raised e).Sound cfg :=
  ⟨raised_wellFormed e, nofun, nofun, nofun, nofun, nofun, nofun⟩

/-- A response made from a result is sound when its results are. -/
theorem ofResult_sound {α : Type} {r : Result α} {fill : α → Response} (h : ∀ v, r = .ok v → (fill v).Sound cfg) :
    (Response.ofResult r fill).Sound cfg := by
  cases r with
  | ok v => exact h v rfl
  | error e => exact raised_sound e

theorem fields_sound {fs : List FieldValue} (h : ∀ v ∈ fs, InDomain cfg v) : Response.Sound cfg { fields := some fs } :=
  ⟨⟨rfl, nofun⟩, fun _ e => Option.some.inj e ▸ h, nofun, nofun, nofun, nofun, nofun⟩

theorem byte_sound {b : Byte} (h : b &&& gap cfg.t1 = 0) (w : Option Bool) :
    Response.Sound cfg { byte := some b, writeNeeded := w } :=
  ⟨⟨rfl, nofun⟩, nofun, fun _ e => Option.some.inj e ▸ h, nofun, nofun, nofun, nofun⟩

theorem sum_sound (p : Payload) : Response.Sound cfg { sum := some (checksum p) } := by
  refine ⟨⟨rfl, nofun⟩, nofun, nofun, fun v e => ?_, nofun, nofun, nofun⟩
  rw [← Option.some.inj e, checksum_toNat]
  exact payloadSum_le p

theorem frame_sound {f : Frame} (h : checksumOk f = true) : Response.Sound cfg { frame := some f } :=
  ⟨⟨rfl, nofun⟩, nofun, nofun, nofun, fun _ e => Option.some.inj e ▸ h, nofun, nofun⟩

theorem flows_sound (measured setpoint : Half) :
    Response.Sound cfg { flow := some (s16 measured), setpoint := some (s16 setpoint) } :=
  ⟨⟨rfl, nofun⟩, nofun, nofun, nofun, nofun, fun _ e => Option.some.inj e ▸ s16_range measured,
    fun _ e => Option.some.inj e ▸ s16_range setpoint⟩

/-- Nothing is asked of the slots that are bare patterns (R32, R155, R167). -/
theorem patterns_sound (raw1 raw2 address : Option Byte) (serial shift : Option Half) :
    Response.Sound cfg { raw1 := raw1, raw2 := raw2, address := address, serial := serial, shift := shift } :=
  ⟨⟨rfl, nofun⟩, nofun, nofun, nofun, nofun, nofun, nofun⟩

/-- A request layout answers a frame that passes VALID, or raises (R135, R150). -/
theorem layout_sound {i : Instr} {l : ReqLayout} {a : ReqArgs} (h : i.layout = some (l, a)) :
    (responseOf cfg i).Sound cfg := by
  rw [← decodeReqLayout_layout h, responseOf_layout]
  exact ofResult_sound fun _ h => frame_sound (checksumOk_layoutFrame h)

theorem valid_sound (f : Frame) : (responseOf cfg (.valid f)).Sound cfg := by
  rw [responseOf_valid]
  split
  · exact ⟨⟨rfl, nofun⟩, nofun, nofun, nofun, nofun, nofun, nofun⟩
  · exact ⟨⟨rfl, rfl, nofun, fun _ => rfl⟩, nofun, nofun, nofun, nofun, nofun, nofun⟩

/-- The unit answers every instruction with a sound response. -/
theorem responseOf_sound (i : Instr) : (responseOf cfg i).Sound cfg := by
  cases i with
  | dec1 _ => exact ofResult_sound fun _ h => fields_sound (inDomain_of_decodeFirst h)
  | dec2 _ => exact ofResult_sound fun _ h => fields_sound (inDomain_of_decodeSecond h)
  | decw _ _ => exact ofResult_sound fun _ h => fields_sound (inDomain_of_decodeWord h)
  | enc1 _ => exact ofResult_sound fun _ h => byte_sound (encodeFirst_and_gap h) none
  | upd1 _ _ _ => exact ofResult_sound fun bw h => byte_sound (updateFirst_and_gap h) (some bw.2)
  | csum p => exact sum_sound p
  | build _ _ _ => exact frame_sound (checksumOk_sealFrame _)
  | valid f => exact valid_sound f
  | getstate _ | addrdef _ | rdflow _ | baud _ _ | regime _ _ _ | readdr _ _ | recov _ _ | plug _ _ | zeroset _ _
  | zeroget _ | setflow _ _ => exact layout_sound rfl
  | rdflowR r => exact ofResult_sound fun _ _ => flows_sound _ _
  | getstateR _ | addrdefR _ | zerogetR _ | ackR _ => exact ofResult_sound fun _ _ => patterns_sound _ _ _ _ _

end

/-! ### What a step can do -/

section

variable {s t : State}

/-- Every next state of a step, by what was done: the unit answers an instruction or a reserved selector; the host blocks,
makes one move (as it is, with the next call taken, or with one transport call made), holds the frame just built, or ends an
exchange that changes its identity. -/
inductive StepEffect (s : State) : State → Prop where
  | answered (i : Instr) : StepEffect s (s.answer (responseOf s.config i))
  | illegal (op : BitVec 4) : StepEffect s (s.raise (.illegalOp op))
  | blocked : StepEffect s s
  | moved {t : State} (h : Moved s t) : StepEffect s t
  | started {t : State} (calls : List Call) (h : Moved (s.taken calls) t) : StepEffect s t
  | called {t : State} (call : TransportCall) (more : List TransportReply)
      (hf : ∀ f, call = .write f → s.host.phase.frame = some f) (h : Moved (s.called more call) t) : StepEffect s t
  | built (x : Exchange) {r : Response} {f : Frame} (hr : s.response = some r) (hf : r.frame = some f) :
      StepEffect s (s.await (.writing x f))
  | identified {x : Exchange} {r : Response} {a : Byte} {n : Half} (hp : s.host.phase = .parsing x)
      (hr : s.response = some r) (hi : r.info = none) (hc : x.call = .identify) (ha : r.address = some a)
      (hn : r.serial = some n) : StepEffect s ((capture a n s).finish (.returned (.address a)))
  | redefined {x : Exchange} {r : Response} {a : Byte} (hp : s.host.phase = .parsing x) (hr : s.response = some r)
      (hi : r.info = none) (hc : x.call = .redefineAddress a) : StepEffect s ((recache a s).finish (.returned .done))

theorem serve_effect {q : Request} (h : serve q s = .next t) : StepEffect s t := by
  unfold serve at h
  split at h
  next i _ => exact exec_next h ▸ .answered i
  next op _ => exact Host.Outcome.next.inj h ▸ .illegal op
  · cases h

theorem hostStep_effect (h : hostStep s = .next t) : StepEffect s t := by
  obtain rfl | ⟨c, rest, -, -, hm⟩ | ⟨x, r, -, hr, hb⟩ | ⟨x, r, hp, hr, ho⟩ | ⟨c, r, -, -, hm⟩ | ⟨call, more, hf, hm⟩ :=
    hostStep_cases h
  · exact .blocked
  · exact .started rest hm
  · obtain hm | ⟨f, hf, rfl⟩ := onBuilt_cases hb
    · exact .moved hm
    · exact .built x hr hf
  · obtain hm | ⟨hi, hc, a, n, ha, hn, rfl⟩ | ⟨hi, a, hc, rfl⟩ := onParsed_cases ho
    · exact .moved hm
    · exact .identified hp hr hi hc ha hn
    · exact .redefined hp hr hi hc
  · exact .moved hm
  · exact .called call more hf hm

/-- Everything a step of the machine can do. -/
theorem step_effect (h : step s = .next t) : StepEffect s t := by
  cases hq : s.request with
  | some q => exact serve_effect (step_of_request hq ▸ h)
  | none => exact hostStep_effect (step_of_no_request hq ▸ h)

/-! ### What every step leaves as it was -/

theorem StepEffect.config (h : StepEffect s t) : t.config = s.config := by
  cases h with
  | moved h | started _ h | called _ _ _ h => exact h.config
  | redefined => exact recache_config s _
  | answered | illegal | blocked | built | identified => rfl

theorem StepEffect.params (h : StepEffect s t) : t.host.params = s.host.params := by
  cases h with
  | moved h | started _ h | called _ _ _ h => exact h.params
  | redefined => exact recache_params s _
  | answered | illegal | blocked | built | identified => rfl

/-- A redefined address is cached under the open parameter alone (N18). -/
@[simp] theorem recache_address (a : Byte) (s : State) :
    (recache a s).host.address = if s.host.params.readdressUpdates then some a else s.host.address := by
  unfold recache
  split <;> rfl

/-! ### Soundness -/

/-- A move leaves no response and no pending frame, and the log as it was. -/
theorem Moved.sound (h : Moved s t) (hs : ∀ f, TransportCall.write f ∈ s.host.log → checksumOk f = true) : t.Sound where
  response r hr := by simp [h.response] at hr
  pending f hf := by simp [h.no_frame] at hf
  sent f hf := hs f (h.log ▸ hf)

theorem State.Sound.answer {r : Response} (h : s.Sound) (hr : r.Sound s.config) : (s.answer r).Sound where
  response _ e := Option.some.inj e ▸ hr
  pending := h.pending
  sent := h.sent

/-- A transport call puts the pending frame on the line, or none. -/
theorem State.Sound.called {call : TransportCall} (h : s.Sound) (hf : ∀ f, call = .write f → s.host.phase.frame = some f)
    (more : List TransportReply) :
    ∀ f, TransportCall.write f ∈ (s.called more call).host.log → checksumOk f = true := by
  intro f hm
  obtain hm | hm := List.mem_append.mp hm
  · exact h.sent f hm
  · exact h.pending f (hf f (List.mem_singleton.mp hm).symm)

/-- The frame of a sound response is one to be put on the line. -/
theorem State.Sound.await_writing {r : Response} {f : Frame} (h : s.Sound) (hr : s.response = some r)
    (hf : r.frame = some f) (x : Exchange) : (s.await (.writing x f)).Sound where
  response _ e := by simp at e
  pending _ e := Option.some.inj e ▸ (h.response r hr).frame f hf
  sent := h.sent

theorem StepEffect.sound (he : StepEffect s t) (h : s.Sound) : t.Sound := by
  cases he with
  | answered i => exact h.answer (responseOf_sound i)
  | illegal op => exact h.answer (raised_sound _)
  | blocked => exact h
  | moved hm | started _ hm => exact hm.sound h.sent
  | called call more hf hm => exact hm.sound (h.called hf more)
  | built x hr hf => exact h.await_writing hr hf x
  | identified => exact (Moved.finish _).sound h.sent
  | redefined => exact (Moved.finish _).sound (by simpa using h.sent)

end

/-! ### A register operand (R32, R112) -/

section

variable (v w : StatusValue) (s : State)

/-- The codec sees a status value through its byte alone: DEC1. -/
theorem exec_dec1_reduce : exec (.dec1 v) s = exec (.dec1 (.byte v.reduce)) s := rfl

theorem exec_dec2_reduce : exec (.dec2 v) s = exec (.dec2 (.byte v.reduce)) s := rfl

theorem exec_decw_reduce : exec (.decw v w) s = exec (.decw (.byte v.reduce) (.byte w.reduce)) s := rfl

theorem exec_upd1_reduce (idx : Nat) (val : Byte) :
    exec (.upd1 v idx val) s = exec (.upd1 (.byte v.reduce) idx val) s := rfl

theorem reduce_reg_be16 (hi lo : Byte) : (StatusValue.reg (be16 hi lo)).reduce = lo := loByte_be16 hi lo

end

/-! ### Reset (R41) -/

theorem fresh_address_of_a {p : HostParams} (h : p.variant = .a) : (HostState.fresh p).address = none := by
  simp [HostState.fresh, h]

theorem fresh_address_of_b {p : HostParams} (h : p.variant = .b) : (HostState.fresh p).address = some p.busAddress := by
  simp [HostState.fresh, h]

theorem sessionState_of_address {h : HostState} {a : Byte} (ha : h.address = some a) : h.sessionState = .identified := by
  simp [HostState.sessionState, ha]

/-- An idle host with no call to make stays as it is. -/
theorem step_of_idle {s : State} (hq : s.request = none) (hp : s.host.phase = .idle) (hc : s.host.calls = []) :
    step s = .next s := by
  rw [step_of_no_request hq, hostStep, hp]
  simp only [hc]

theorem sound_of_idle {s : State} (hr : s.response = none) (hp : s.host.phase = .idle) (hl : s.host.log = []) :
    s.Sound where
  response _ e := by simp [hr] at e
  pending _ e := by simp [hp, Phase.frame] at e
  sent _ e := by simp [hl] at e

theorem inStep_of_idle {s : State} (hp : s.host.phase = .idle) : s.InStep := by
  simp [State.InStep, hp]

/-! ### The obligations -/

/-- Settles O46: the unit answers sound responses only, and what the host puts on the line is a frame of one of them. -/
theorem stepKeepsResponsesAndFramesSound : Obligations.StepKeepsResponsesAndFramesSound :=
  fun _ _ hs h => (step_effect h).sound hs

/-- Settles O35: exec answers the response of the instruction, and a sound response is well formed. -/
theorem everyInstructionAnswersAndKeepsTheRest : Obligations.EveryInstructionAnswersAndKeepsTheRest :=
  fun i s => ⟨_, exec_eq_answer i s, (responseOf_sound i).wellFormed⟩

/-- Settles O45: nothing a step can do touches the configuration or the session's parameters. -/
theorem configurationNeverChanges : Obligations.ConfigurationNeverChanges :=
  fun _ _ h => ⟨(step_effect h).config, (step_effect h).params⟩

/-- Settles O51: of all a step can do, only a captured and a redefined identity differ from the one before. -/
theorem identityChangesOnlyByValidatedExchange : Obligations.IdentityChangesOnlyByValidatedExchange := by
  intro s t h hne
  cases step_effect h with
  | identified hp hr hi hc ha hn => exact ⟨_, _, hp, hr, hi, .inl ⟨hc, _, _, ha, hn, rfl, rfl⟩⟩
  | redefined hp hr hi hc =>
    have hu : s.host.params.readdressUpdates = true := by
      by_contra hu
      simp [hu] at hne
    exact ⟨_, _, hp, hr, hi, .inr ⟨_, hc, hu, by simp [hu], by simp⟩⟩
  | moved hm | started _ hm | called _ _ _ hm => simp [hm.address, hm.serial] at hne
  | answered | illegal | blocked | built => simp at hne

/-- Settles O14: the byte of a register is its low byte, and the four operations read the byte alone. -/
theorem registerUpperByteIsIgnored : Obligations.RegisterUpperByteIsIgnored := by
  intro hi lo hi' lo' idx val s
  rw [exec_dec1_reduce, exec_dec2_reduce, exec_decw_reduce, exec_upd1_reduce, reduce_reg_be16, reduce_reg_be16]
  exact ⟨rfl, rfl, rfl, rfl⟩

/-- Settles O44: reset by its fields; the host is idle, with no call to make. -/
theorem resetLeavesTheUnitIdle : Obligations.ResetLeavesTheUnitIdle :=
  ⟨rfl, rfl, rfl, rfl, fun ha => ⟨fresh_address_of_a ha, rfl⟩,
    fun hb => sessionState_of_address (fresh_address_of_b hb), step_of_idle rfl rfl rfl⟩

/-- Settles O47: after reset there is no response, no pending frame and an empty log. -/
theorem resetIsSound : Obligations.ResetIsSound := sound_of_idle rfl rfl rfl

/-- Settles O49: the host is idle, and waits for nothing. -/
theorem resetIsInStep : Obligations.ResetIsInStep := fun _ _ _ => inStep_of_idle rfl

end Sys2Proof.Machine
end

section
/-! SUPPORT. Proofs of 20_memory. The response of an operation is a function of its instruction and the configuration (R59, R62):
no earlier response and nothing of the host reaches it, so no error sticks (R242). -/

namespace Sys2Proof.Machine

/-- What an instruction leaves in the response record. -/
theorem exec_response {i : Instr} {s t : State} (h : exec i s = .next t) : t.response = some (responseOf s.config i) := by
  rw [exec_next h, answer_response]

/-! ### The obligations -/

/-- Settles O36: of the state, the response sees the configuration alone. -/
theorem responseDependsOnRequestAndConfiguration : Obligations.ResponseDependsOnRequestAndConfiguration := by
  intro i s s' t t' hcfg h h'
  rw [exec_response h, exec_response h', hcfg]

end Sys2Proof.Machine
end

section
/-! SUPPORT. Proofs of 30_encoding. Encoding and decoding agree in both directions: an instruction has an encoding exactly
when it is well formed, and decoding the encoding gives it back; a valid frame that decodes is what its instruction encodes
to. The reserved bits of a status byte reach no decode (R79). A reserved selector and a received frame are served as the
selector (R72) and the request sent (R77) say. -/

namespace Sys2Proof

section

variable {i : Instr} {l : ReqLayout} {a : ReqArgs} {f : Frame}

/-! ### From the instruction to its encoding -/

/-- A layout is encoded exactly where its argument bytes are defined. -/
theorem layoutEncoding_eq_some :
    layoutEncoding l a = some f ↔
      ∃ g, layoutArgs l a = .ok g ∧ f = sealFrame { cmd := l.code, args := g, addr := a.addr } := by
  constructor
  · intro h
    unfold layoutEncoding at h
    split at h
    next g hg => exact ⟨g, hg, (Option.some.inj h).symm⟩
    next => cases h
  · rintro ⟨g, hg, rfl⟩
    exact layoutEncoding_ok hg

/-- BAUD is encoded exactly at a rate with a code (R164). -/
theorem layoutEncoding_baud_isSome (a : ReqArgs) : (layoutEncoding .baud a).isSome = (ratecode a.rate).isSome := by
  cases hr : ratecode a.rate with
  | some c => simp [layoutEncoding_ok (layoutArgs_baud_ok a hr)]
  | none => simp [layoutEncoding, layoutArgs_baud_error a hr]

/-- The instruction of a layout is well formed exactly when the layout is encoded (R164). -/
theorem wf_of_layout (h : i.layout = some (l, a)) : i.wf = (layoutEncoding l a).isSome := by
  cases i <;> cases h
  case baud rate addr => exact (layoutEncoding_baud_isSome { rate := rate, addr := addr }).symm
  all_goals rfl

theorem encode_of_layout (h : i.layout = some (l, a)) : encode i = (layoutEncoding l a).map .reqFrame := by
  cases i <;> cases h <;> rfl

/-- An instruction of no request layout is always encoded, by its selector or by the request sent (R71, R77). -/
theorem encode_of_no_layout (h : i.layout = none) : i.wf = true ∧ ∃ q, encode i = some q ∧ decodeRequest q = .instr i := by
  cases i <;> cases h <;> exact ⟨rfl, _, rfl, rfl⟩

theorem encode_isSome (i : Instr) : (encode i).isSome = i.wf := by
  cases hl : i.layout with
  | some la => rw [encode_of_layout hl, wf_of_layout hl, Option.isSome_map]
  | none =>
    obtain ⟨hw, q, hq, -⟩ := encode_of_no_layout hl
    rw [hw, hq, Option.isSome_some]

/-! ### From the encoding back to the instruction -/

theorem decodeReqFrame_of_layoutEncoding (h : layoutEncoding l a = some f) :
    decodeReqFrame f = .instr (decodeReqLayout l a) := by
  obtain ⟨g, hg, rfl⟩ := layoutEncoding_eq_some.mp h
  exact decodeReqFrame_of_layoutArgs hg

theorem decodeRequest_of_encode {q : Request} (h : encode i = some q) : decodeRequest q = .instr i := by
  cases hl : i.layout with
  | some la =>
    rw [encode_of_layout hl] at h
    obtain ⟨f, hf, rfl⟩ := Option.map_eq_some_iff.mp h
    rw [decodeRequest, decodeReqFrame_of_layoutEncoding hf, decodeReqLayout_layout hl]
  | none =>
    obtain ⟨-, q', hq', hd⟩ := encode_of_no_layout hl
    rwa [Option.some.inj (h.symm.trans hq')]

/-! ### From a frame to its instruction -/

/-- A frame that decodes is, up to its trailer, the one a layout lays out for the arguments read. -/
theorem decodeReqFrame_inv (h : decodeReqFrame f = .instr i) :
    ∃ l a, i = decodeReqLayout l a ∧ layoutEncoding l a = some (sealFrame f.payload) := by
  unfold decodeReqFrame at h
  split at h
  next l hl =>
    obtain ⟨a, ha, hg, hi⟩ := decodeFrameArgs_inv h
    refine ⟨l, a, hi, ?_⟩
    rw [layoutEncoding_ok hg, ← selectLayout_code hl, ha]
  next => cases h

/-- An instruction with a frame is one of a layout, and the frame the layout's. -/
theorem encodeFrame_inv (h : encodeFrame i = some f) : ∃ l a, i = decodeReqLayout l a ∧ layoutEncoding l a = some f := by
  unfold encodeFrame at h
  split at h
  next l a hl => exact ⟨l, a, (decodeReqLayout_layout hl).symm, h⟩
  next => cases h

end

end Sys2Proof

namespace Sys2Proof.Machine

/-! ### Reserved bits (R31, R79) -/

/-- A table decode sees a byte through the table's fields alone. -/
theorem decodeTableFrom_congr {t : Table} {tab : Tab} {raw raw' : Byte}
    (h : ∀ fs ∈ t, extractField raw fs = extractField raw' fs) (k : Nat) :
    decodeTableFrom tab raw k t = decodeTableFrom tab raw' k t := by
  induction t generalizing k with
  | nil => rfl
  | cons fs t ih =>
    have hfs := h fs List.mem_cons_self
    have ht := ih (fun g hg => h g (List.mem_cons_of_mem _ hg)) (k + 1)
    simp only [decodeTableFrom, hfs, ht]

/-- Bytes that agree where some mask of the table covers them decode alike. -/
theorem decodeTable_congr {t : Table} {raw raw' : Byte} (h : raw &&& covered t = raw' &&& covered t) (tab : Tab) :
    decodeTable t tab raw = decodeTable t tab raw' :=
  decodeTableFrom_congr (fun fs hfs => by rw [← extractField_covered hfs raw, h, extractField_covered hfs]) 0

section

variable {cfg : UnitConfig} {v w : StatusValue}

/-- DEC1 sees its operand through the decode by `T1`. -/
theorem responseOf_dec1_congr (h : decodeFirst cfg v = decodeFirst cfg w) :
    responseOf cfg (.dec1 v) = responseOf cfg (.dec1 w) := by
  simp only [responseOf, h]

theorem responseOf_dec2_congr (h : decodeSecond cfg v = decodeSecond cfg w) :
    responseOf cfg (.dec2 v) = responseOf cfg (.dec2 w) := by
  simp only [responseOf, h]

/-- UPD1 sees the current byte through its decode by `T1`. -/
theorem responseOf_upd1_congr (h : decodeFirst cfg v = decodeFirst cfg w) (idx : Nat) (val : Byte) :
    responseOf cfg (.upd1 v idx val) = responseOf cfg (.upd1 w idx val) := by
  simp only [responseOf, updateFirst, h]

end

/-! ### Serving a request -/

section

variable {s : State}

/-- The frame a layout is encoded by is the one it builds. -/
theorem layoutFrame_of_encoding {l : ReqLayout} {a : ReqArgs} {f : Frame} (h : layoutEncoding l a = some f) :
    layoutFrame l a = .ok f := by
  obtain ⟨g, hg, rfl⟩ := layoutEncoding_eq_some.mp h
  exact layoutFrame_ok hg

/-- Selectors 8 to 15 are reserved (R72). -/
theorem decodeRequest_reserved {op : BitVec 4} (h : 8 ≤ op.toNat) (x : Slots) :
    decodeRequest (.unitOp op x) = .illegalOp op := by
  rw [decodeRequest, decodeUnitOp]
  split
  case h_9 => rfl
  all_goals omega

theorem serve_of_illegalOp {q : Request} {op : BitVec 4} (h : decodeRequest q = .illegalOp op) :
    serve q s = .next (s.raise (.illegalOp op)) := by
  simp only [serve, h]

/-- A received frame is parsed by the layout of the request sent (R77). -/
theorem step_of_rspLayout {sent : ReqLayout} {r : Frame} (hq : s.request = some (.rspLayout sent r)) :
    step s = exec (decodeRspLayout sent r) s := by
  rw [step_of_request hq, serve_of_instr rfl]

theorem decodeRspLayout_of_ack {sent : ReqLayout} (h : sent.response = .ackR) (r : Frame) :
    decodeRspLayout sent r = .ackR r := by
  simp only [decodeRspLayout, h]

end

/-! ### The obligations -/

/-- Settles O41: an instruction has an encoding exactly when it is well formed, and every encoding decodes back. -/
theorem decodeOfEncodedInstruction : Obligations.DecodeOfEncodedInstruction := by
  intro i
  constructor
  · intro hw
    obtain ⟨q, hq⟩ := Option.isSome_iff_exists.mp ((encode_isSome i).trans hw)
    exact ⟨q, hq, decodeRequest_of_encode hq⟩
  · intro hw
    simpa [hw] using encode_isSome i

/-- Settles O42: decoding checks every byte of the payload against its layout, and a valid trailer is the checksum. -/
theorem validFrameIsItsInstructionsEncoding : Obligations.ValidFrameIsItsInstructionsEncoding := by
  intro f i hf hi
  obtain ⟨l, a, rfl, hl⟩ := decodeReqFrame_inv hi
  rw [encodeFrame_decodeReqLayout, hl, ← eq_sealFrame ((checksumOk_iff f).mp hf)]

/-- Settles O13: the three operations read a byte through a table decode, and that through the covered bits. -/
theorem reservedBitsAreIgnored : Obligations.ReservedBitsAreIgnored := by
  intro raw raw' idx val s
  simp only [exec_eq_answer]
  constructor
  · intro h
    have hd : decodeFirst s.config (.byte raw) = decodeFirst s.config (.byte raw') := decodeTable_congr h .first
    rw [responseOf_dec1_congr hd, responseOf_upd1_congr hd]
    exact ⟨rfl, rfl⟩
  · intro h
    have hd : decodeSecond s.config (.byte raw) = decodeSecond s.config (.byte raw') := decodeTable_congr h .second
    rw [responseOf_dec2_congr hd]

/-- Settles O28: exec and the encoder lay out the same arguments and seal them with the same checksum. -/
theorem layoutsBuildTheirEncoding : Obligations.LayoutsBuildTheirEncoding := by
  intro i f s h
  obtain ⟨l, a, rfl, hl⟩ := encodeFrame_inv h
  rw [exec_eq_answer, responseOf_layout, layoutFrame_of_encoding hl, ofResult_ok]
  rfl

/-- Settles O39: a reserved selector decodes to no instruction, and raising is the whole answer. -/
theorem reservedSelectorAnswersIllegalOp : Obligations.ReservedSelectorAnswersIllegalOp := by
  intro s op x hq hop
  rw [step_of_request hq, serve_of_illegalOp (decodeRequest_reserved hop x)]
  rfl

/-- Settles O40: eight closed words, evaluated by the decoder. -/
theorem tableWordsDecode : Obligations.TableWordsDecode := by
  unfold Obligations.TableWordsDecode
  decide

/-- Settles O43: the decoder looks at the request sent, never into the frame. -/
theorem responseLayoutFollowsTheRequestSent : Obligations.ResponseLayoutFollowsTheRequestSent := by
  intro r s
  refine ⟨step_of_rspLayout, step_of_rspLayout, step_of_rspLayout, step_of_rspLayout, fun sent hsent hq => ?_⟩
  have hack : ∀ l ∈ [ReqLayout.regime, .setflow, .recov, .plug, .readdr, .baud, .zeroset], l.response = .ackR := by decide
  rw [step_of_rspLayout hq, decodeRspLayout_of_ack (hack sent hsent)]

end Sys2Proof.Machine
end

section
/-! SUPPORT. Proofs of 40_state_codec. What each operation of the codec answers is said once, as an equation or an `↔` about its
function of the configuration (`decodeWord`, `encodeFirst`, `updateFirst`); one lemma carries an answer to the whole next state of
`exec` and one carries a response back to the answer. The laws between the operations then speak of `packedByte` and `fieldsOf`
alone: the bits of a packed byte are those of its values (R108), and packing a decoded byte keeps its covered bits (R109). -/

namespace Sys2Proof.Machine

/-! ### From the answer of an operation to the next state, and back -/

section

variable {α : Type} {i : Instr} {s t : State} {r : Result α} {fill : α → Response}

theorem UnitError.status_ne_ok (e : UnitError) : e.status ≠ .ok := by
  cases e <;> nofun

theorem exec_of_ok {v : α} {resp : Response} (hi : responseOf s.config i = .ofResult r fill) (h : r = .ok v)
    (hfill : fill v = resp) : exec i s = .next { s with request := none, response := some resp } := by
  rw [exec_eq_answer, hi, h, ofResult_ok, hfill]
  rfl

theorem exec_of_error {e : UnitError} (hi : responseOf s.config i = .ofResult r fill) (h : r = .error e) :
    exec i s = .next { s with request := none, response := some { status := e.status, info := some e } } := by
  rw [exec_eq_answer, hi, h, ofResult_error]
  rfl

/-- A response with status OK comes from a result: an error is reported with another status (R231). -/
theorem result_of_response {resp : Response} (hi : responseOf s.config i = .ofResult r fill) (he : exec i s = .next t)
    (ht : t.response = some resp) (hok : resp.status = .ok) : ∃ v, r = .ok v ∧ fill v = resp := by
  have hresp : Response.ofResult r fill = resp := by
    rw [← hi]
    exact Option.some.inj ((exec_response he).symm.trans ht)
  cases r with
  | ok v => exact ⟨v, rfl, hresp⟩
  | error e =>
    subst hresp
    exact absurd hok e.status_ne_ok

end

section

variable {cfg : UnitConfig} {s t : State} {raw : StatusValue} {seq : List FieldValue}

theorem decodeFirst_of_response (he : exec (.dec1 raw) s = .next t) (ht : t.response = some { fields := some seq }) :
    Decodes s.config.t1 raw.reduce ∧ seq = fieldsOf s.config.t1 .first raw.reduce := by
  obtain ⟨out, hout, hfill⟩ := result_of_response rfl he ht rfl
  cases hfill
  exact decodeTable_ok hout

theorem encodeFirst_of_response {b : Byte} (he : exec (.enc1 seq) s = .next t)
    (ht : t.response = some { byte := some b }) : encodeFirst s.config seq = .ok b := by
  obtain ⟨b', hb, hfill⟩ := result_of_response rfl he ht rfl
  cases hfill
  exact hb

theorem updateFirst_of_response {idx : Nat} {val b : Byte} {w : Bool} (he : exec (.upd1 raw idx val) s = .next t)
    (ht : t.response = some { byte := some b, writeNeeded := some w }) :
    updateFirst s.config raw idx val = .ok (b, w) := by
  obtain ⟨bw, hbw, hfill⟩ := result_of_response rfl he ht rfl
  cases hfill
  exact hbw

/-! ### Decoding the pair (R104) -/

variable {raw1 raw2 : StatusValue}

theorem decodeWord_of_decodes (h1 : Decodes cfg.t1 raw1.reduce) (h2 : Decodes cfg.t2 raw2.reduce) :
    decodeWord cfg raw1 raw2 = .ok (fieldsOf cfg.t1 .first raw1.reduce ++ fieldsOf cfg.t2 .second raw2.reduce) := by
  simp only [decodeWord, decodeFirst, decodeSecond, decodeTable_of_decodes h1, decodeTable_of_decodes h2]

variable {k : Nat} {fs : FieldSpec}

theorem decodeWord_of_first_bad (h : FirstBad cfg.t1 raw1.reduce k fs) :
    decodeWord cfg raw1 raw2 = .error (.domain .first k fs.name (extractField raw1.reduce fs)) := by
  simp only [decodeWord, decodeFirst, decodeTable_of_bad h]

theorem decodeWord_of_second_bad (h1 : Decodes cfg.t1 raw1.reduce) (h : FirstBad cfg.t2 raw2.reduce k fs) :
    decodeWord cfg raw1 raw2 = .error (.domain .second k fs.name (extractField raw2.reduce fs)) := by
  simp only [decodeWord, decodeFirst, decodeSecond, decodeTable_of_decodes h1, decodeTable_of_bad h]

/-! ### The shape and the domains of a sequence (R106) -/

theorem firstMisplaced_of_matches (hm : MatchesFirst cfg seq) : firstMisplaced 0 seq = none :=
  firstMisplaced_none.mpr fun j v hv => by simpa using hm.2 j v hv

theorem matchesFirst_of_firstMisplaced (hl : seq.length = cfg.t1.length) (h : firstMisplaced 0 seq = none) :
    MatchesFirst cfg seq :=
  ⟨hl, fun j v hv => by simpa using firstMisplaced_none.mp h j v hv⟩

/-- The domain check of an encode is that the values fit the table. -/
theorem firstForeign_eq_none_iff_fit {tbl : Table} (hl : seq.length = tbl.length) :
    firstForeign 0 tbl seq = none ↔ Fit tbl (seq.map FieldValue.val) := by
  rw [firstForeign_none hl]
  constructor
  · intro h j g x hg hx
    rw [List.getElem?_map] at hx
    obtain ⟨v, hv, rfl⟩ := Option.map_eq_some_iff.mp hx
    exact h j g v hg hv
  · intro h j g v hg hv
    exact h j g v.val hg (by simp [hv])

/-- In a sequence that matches the table, a value in its domain is a member of the field at its own position. -/
theorem MatchesFirst.isSome_memberOf (hm : MatchesFirst cfg seq) {j : Nat} {v : FieldValue} (hv : seq[j]? = some v)
    (hfs : cfg.t1[j]? = some fs) (hd : InDomain cfg v) : (memberOf fs.domain v.val).isSome = true := by
  obtain ⟨g, hg, hmem⟩ := hd
  obtain ⟨htab, hidx⟩ := hm.2 j v hv
  rw [htab, hidx] at hg
  obtain rfl : fs = g := Option.some.inj (hfs.symm.trans hg)
  exact hmem

theorem MatchesFirst.fit (hm : MatchesFirst cfg seq) (hd : ∀ v ∈ seq, InDomain cfg v) :
    Fit cfg.t1 (seq.map FieldValue.val) :=
  (firstForeign_eq_none_iff_fit hm.1).mp <| (firstForeign_none hm.1).mpr fun _ _ v hg hv =>
    hm.isSome_memberOf hv hg (hd v (List.mem_of_getElem? hv))

theorem matchesFirst_fieldsOf (cfg : UnitConfig) (b : Byte) : MatchesFirst cfg (fieldsOf cfg.t1 .first b) := by
  refine ⟨fieldsOf_length _, fun k v hv => ?_⟩
  rw [fieldsOf_getElem?] at hv
  obtain ⟨fs, -, rfl⟩ := Option.map_eq_some_iff.mp hv
  exact ⟨rfl, rfl⟩

/-- One element replaced by another value of the same field: the sequence matches the table as before. -/
theorem MatchesFirst.set (hm : MatchesFirst cfg seq) (k : Nat) (x : Byte) :
    MatchesFirst cfg (seq.set k ⟨.first, k, x⟩) := by
  refine ⟨by rw [List.length_set, hm.1], fun j v hv => ?_⟩
  by_cases hj : k = j
  · subst hj
    obtain ⟨-, rfl⟩ : k < seq.length ∧ FieldValue.mk .first k x = v := by simpa [List.getElem?_set] using hv
    exact ⟨rfl, rfl⟩
  · rw [List.getElem?_set_ne hj] at hv
    exact hm.2 j v hv

/-- A sequence that matches the table is given by its values. -/
theorem MatchesFirst.eq_fieldsOf (hm : MatchesFirst cfg seq) {b : Byte}
    (hv : seq.map FieldValue.val = cfg.t1.map (extractField b)) : seq = fieldsOf cfg.t1 .first b := by
  refine List.ext_getElem? fun k => ?_
  have hk := congrArg (·[k]?) hv
  simp only [List.getElem?_map] at hk
  rw [fieldsOf_getElem?]
  cases hs : seq[k]? with
  | none =>
    rw [hs, Option.map_none, eq_comm, Option.map_eq_none_iff] at hk
    rw [hk, Option.map_none]
  | some v =>
    rw [hs, Option.map_some, eq_comm] at hk
    obtain ⟨fs, hfs, hval⟩ := Option.map_eq_some_iff.mp hk
    obtain ⟨htab, hidx⟩ := hm.2 k v hs
    rw [hfs, Option.map_some, hval, ← htab, ← hidx]

/-! ### What ENC1 answers (R106, R239) -/

theorem encodeFirst_of_length_ne (h : seq.length ≠ cfg.t1.length) :
    encodeFirst cfg seq = .error (.shapeLength cfg.t1.length seq.length) := by
  rw [encodeFirst, if_pos h]

theorem encodeFirst_of_misplaced {e : UnitError} (hl : seq.length = cfg.t1.length) (h : firstMisplaced 0 seq = some e) :
    encodeFirst cfg seq = .error e := by
  rw [encodeFirst, if_neg (not_not.mpr hl), h]

theorem encodeFirst_of_foreign {e : UnitError} (hm : MatchesFirst cfg seq) (h : firstForeign 0 cfg.t1 seq = some e) :
    encodeFirst cfg seq = .error e := by
  rw [encodeFirst, if_neg (not_not.mpr hm.1), firstMisplaced_of_matches hm, h]

theorem encodeFirst_of_fit (hm : MatchesFirst cfg seq) (hf : Fit cfg.t1 (seq.map FieldValue.val)) :
    encodeFirst cfg seq = .ok (packedByte cfg.t1 (seq.map FieldValue.val)) := by
  rw [encodeFirst, if_neg (not_not.mpr hm.1), firstMisplaced_of_matches hm, (firstForeign_eq_none_iff_fit hm.1).mpr hf,
    pack_eq_packedByte]

/-- ENC1 answers a byte for a matching sequence whose values fit, and for no other. -/
theorem encodeFirst_eq_ok {b : Byte} : encodeFirst cfg seq = .ok b ↔
    MatchesFirst cfg seq ∧ Fit cfg.t1 (seq.map FieldValue.val) ∧ b = packedByte cfg.t1 (seq.map FieldValue.val) := by
  constructor
  · intro h
    by_cases hl : seq.length = cfg.t1.length
    · cases hmis : firstMisplaced 0 seq with
      | some e => cases (encodeFirst_of_misplaced hl hmis).symm.trans h
      | none =>
        have hm := matchesFirst_of_firstMisplaced hl hmis
        cases hfor : firstForeign 0 cfg.t1 seq with
        | some e => cases (encodeFirst_of_foreign hm hfor).symm.trans h
        | none =>
          have hf := (firstForeign_eq_none_iff_fit hl).mp hfor
          exact ⟨hm, hf, (Except.ok.inj ((encodeFirst_of_fit hm hf).symm.trans h)).symm⟩
    · cases (encodeFirst_of_length_ne hl).symm.trans h
  · rintro ⟨hm, hf, rfl⟩
    exact encodeFirst_of_fit hm hf

/-! ### What UPD1 answers (R107, R239) -/

variable {idx : Nat} {val : Byte}

theorem updateFirst_of_past (h : cfg.t1.length ≤ idx) :
    updateFirst cfg raw idx val = .error (.shapeIdentity idx none) := by
  simp only [updateFirst, List.getElem?_eq_none h]

theorem updateFirst_of_foreign (hfs : cfg.t1[idx]? = some fs) (h : memberOf fs.domain val = none) :
    updateFirst cfg raw idx val = .error (.domain .first idx fs.name val) := by
  simp only [updateFirst, hfs, h]

theorem updateFirst_of_bad {bad : FieldSpec} (hfs : cfg.t1[idx]? = some fs)
    (hval : (memberOf fs.domain val).isSome = true) (h : FirstBad cfg.t1 raw.reduce k bad) :
    updateFirst cfg raw idx val = .error (.domain .first k bad.name (extractField raw.reduce bad)) := by
  obtain ⟨m, hm⟩ := Option.isSome_iff_exists.mp hval
  simp only [updateFirst, decodeFirst, hfs, hm, decodeTable_of_bad h]

theorem writeNeeded_fieldsOf {b : Byte} (hfs : cfg.t1[idx]? = some fs) :
    writeNeeded (fieldsOf cfg.t1 .first b) idx val = (extractField b fs != val) := by
  simp only [writeNeeded, fieldsOf_getElem?, hfs, Option.map_some]
  rfl

theorem updateFirst_of_decodes (hfs : cfg.t1[idx]? = some fs) (hval : (memberOf fs.domain val).isSome = true)
    (hd : Decodes cfg.t1 raw.reduce) :
    updateFirst cfg raw idx val =
      .ok (packedByte cfg.t1 ((cfg.t1.map (extractField raw.reduce)).set idx val), extractField raw.reduce fs != val) := by
  obtain ⟨m, hm⟩ := Option.isSome_iff_exists.mp hval
  simp only [updateFirst, decodeFirst, hfs, hm, decodeTable_of_decodes hd, pack_eq_packedByte, List.map_set,
    fieldsOf_vals, writeNeeded_fieldsOf hfs]

/-- What UPD1 has found when it answers a byte. -/
theorem updateFirst_ok {b : Byte} {w : Bool} (h : updateFirst cfg raw idx val = .ok (b, w)) :
    Fit cfg.t1 ((cfg.t1.map (extractField raw.reduce)).set idx val) ∧
      b = packedByte cfg.t1 ((cfg.t1.map (extractField raw.reduce)).set idx val) := by
  cases hfs : cfg.t1[idx]? with
  | none => cases (updateFirst_of_past (List.getElem?_eq_none_iff.mp hfs)).symm.trans h
  | some fs =>
    cases hval : memberOf fs.domain val with
    | none => cases (updateFirst_of_foreign hfs hval).symm.trans h
    | some m =>
      have hmem : (memberOf fs.domain val).isSome = true := by simp [hval]
      obtain hd | ⟨k, bad, hbad⟩ := decodes_or_firstBad cfg.t1 raw.reduce
      · cases (updateFirst_of_decodes hfs hmem hd).symm.trans h
        exact ⟨(fit_of_decodes hd).set hfs hmem, rfl⟩
      · cases (updateFirst_of_bad hfs hmem hbad).symm.trans h

end

/-! ### The round trips on the byte (R108, R109) -/

section

variable {tbl : Table} {vals : List Byte}

/-- Extracting every field of a packed byte gives the packed values back. -/
theorem map_extractField_packedByte (hw : Table.WF tbl) (hl : vals.length = tbl.length) (hf : Fit tbl vals) :
    tbl.map (extractField (packedByte tbl vals)) = vals := by
  refine List.ext_getElem (by simp [hl]) fun k hk hk' => ?_
  rw [List.getElem_map]
  exact extractField_packedByte hw hf (List.getElem?_eq_getElem _) (List.getElem?_eq_getElem hk')

/-- A byte whose field values fit the table decodes. -/
theorem decodes_of_fit {b : Byte} (hf : Fit tbl (tbl.map (extractField b))) : Decodes tbl b := by
  intro fs hfs
  obtain ⟨k, hk⟩ := List.mem_iff_getElem?.mp hfs
  exact hf k fs _ hk (by simp [hk])

theorem packedByte_map_extractField (tbl : Table) (b : Byte) :
    packedByte tbl (tbl.map (extractField b)) =
      (tbl.map fun fs => extractField b fs <<< fs.shift).foldl (· ||| ·) 0 := by
  simp only [packedByte, List.zipWith_map_right, List.zipWith_self, insertField]

theorem insertField_extractField {fs : FieldSpec} (ha : Aligned fs) (b : Byte) :
    insertField fs (extractField b fs) = b &&& fs.mask := ha b

/-- Where no shift loses bits, packing what a byte decodes to keeps its covered bits. -/
theorem packedByte_map_extractField_of_aligned (ha : ∀ fs ∈ tbl, Aligned fs) (b : Byte) :
    packedByte tbl (tbl.map (extractField b)) = b &&& covered tbl := by
  induction tbl with
  | nil => simp [covered]
  | cons fs tbl ih =>
    rw [List.map_cons, packedByte_cons, insertField_extractField (ha fs List.mem_cons_self),
      ih fun g hg => ha g (List.mem_cons_of_mem _ hg), covered_cons, BitVec.and_or_distrib_left]

theorem not_gap (tbl : Table) : ~~~ gap tbl = covered tbl := BitVec.not_not

end

/-! ### The obligations -/

/-- Settles O1: DEC1 is the decode of `T1`, which answers every field or the lowest bad one. -/
theorem dec1DecodesOrNamesLowestField : Obligations.Dec1DecodesOrNamesLowestField := fun _ _ =>
  ⟨fun hd => exec_of_ok rfl (decodeTable_of_decodes hd) rfl, fun _ _ hb => exec_of_error rfl (decodeTable_of_bad hb),
    decodes_or_firstBad _ _⟩

/-- Settles O2: DEC2 is the decode of `T2`. -/
theorem dec2DecodesOrNamesLowestField : Obligations.Dec2DecodesOrNamesLowestField := fun _ _ =>
  ⟨fun hd => exec_of_ok rfl (decodeTable_of_decodes hd) rfl, fun _ _ hb => exec_of_error rfl (decodeTable_of_bad hb),
    decodes_or_firstBad _ _⟩

/-- Settles O3: the two decodes in their order. -/
theorem decwConcatenatesFirstThenSecond : Obligations.DecwConcatenatesFirstThenSecond := fun _ _ _ =>
  ⟨fun h1 h2 => exec_of_ok rfl (decodeWord_of_decodes h1 h2) rfl,
    fun _ _ hb => exec_of_error rfl (decodeWord_of_first_bad hb),
    fun _ _ h1 hb => exec_of_error rfl (decodeWord_of_second_bad h1 hb)⟩

/-- Settles O4: values in their domains fit the table, and a matching sequence that fits is packed. -/
theorem enc1PacksMatchingSequence : Obligations.Enc1PacksMatchingSequence := fun _ _ hm hd =>
  exec_of_ok rfl (encodeFirst_of_fit hm (hm.fit hd)) rfl

/-- Settles O5: each check stops at the lowest position that fails it, and a later check runs only when the earlier ones
pass. -/
theorem enc1RejectsInOrder : Obligations.Enc1RejectsInOrder := by
  intro seq s
  refine ⟨fun hl => exec_of_error rfl (encodeFirst_of_length_ne hl), fun k v hl hv hbad hpre => ?_,
    fun k v fs hm hv hfs hbad hpre => ?_⟩
  · have hmis : firstMisplaced 0 seq = some (.shapeIdentity k (some (v.tab, v.idx))) := by
      simpa using firstMisplaced_at (k := 0) hv (by simpa using hbad) (by simpa using hpre)
    exact exec_of_error rfl (encodeFirst_of_misplaced hl hmis)
  · have hbelow : ∀ (j : Nat) (g : FieldSpec) (w : FieldValue), j < k → s.config.t1[j]? = some g → seq[j]? = some w →
        (memberOf g.domain w.val).isSome = true := fun j g w hj hg hw =>
      hm.isSome_memberOf hw hg (hpre w (List.mem_of_getElem? ((List.getElem?_take_of_lt hj).trans hw)))
    have hfor : firstForeign 0 s.config.t1 seq = some (.domain .first k fs.name v.val) := by
      simpa using firstForeign_at (k := 0) hfs hv hbad hbelow
    exact exec_of_error rfl (encodeFirst_of_foreign hm hfor)

/-- Settles O6: an element of `T2` is misplaced at every position, so the sequence fails the length check or the identity
check. -/
theorem secondTableFieldIsNeverEncoded : Obligations.SecondTableFieldIsNeverEncoded := by
  rintro seq s ⟨v, hv, htab⟩
  by_cases hl : seq.length = s.config.t1.length
  · cases hmis : firstMisplaced 0 seq with
    | none =>
      obtain ⟨k, hk⟩ := List.mem_iff_getElem?.mp hv
      obtain ⟨hfirst, -⟩ := firstMisplaced_none.mp hmis k v hk
      cases htab.symm.trans hfirst
    | some e =>
      refine ⟨e, ?_⟩
      rw [← firstMisplaced_status hmis]
      exact exec_of_error rfl (encodeFirst_of_misplaced hl hmis)
  · exact ⟨_, exec_of_error rfl (encodeFirst_of_length_ne hl)⟩

/-- Settles O7: with all three checks passed, UPD1 packs the decoded values with one replaced. -/
theorem upd1ReplacesOneField : Obligations.Upd1ReplacesOneField := fun _ _ _ _ _ hfs hval hd =>
  exec_of_ok rfl (updateFirst_of_decodes hfs hval hd) rfl

/-- Settles O8: the three checks in their order. -/
theorem upd1RejectsInOrder : Obligations.Upd1RejectsInOrder := fun _ _ _ _ =>
  ⟨fun h => exec_of_error rfl (updateFirst_of_past h), fun _ hfs h => exec_of_error rfl (updateFirst_of_foreign hfs h),
    fun _ _ _ hfs hval h => exec_of_error rfl (updateFirst_of_bad hfs hval h)⟩

/-- Settles O9: the replaced sequence matches the table and holds the very values UPD1 packs. -/
theorem upd1IsDecodeReplaceEncode : Obligations.Upd1IsDecodeReplaceEncode := by
  intro raw idx val b w cur s t u hdec ht hupd hu
  obtain ⟨-, rfl⟩ := decodeFirst_of_response hdec ht
  obtain ⟨hf, hb⟩ := updateFirst_ok (updateFirst_of_response hupd hu)
  have hm := (matchesFirst_fieldsOf s.config raw.reduce).set idx val
  refine exec_of_ok rfl (encodeFirst_eq_ok.mpr ⟨hm, ?_⟩) rfl
  rw [List.map_set, fieldsOf_vals]
  exact ⟨hf, hb⟩

/-- Settles O10: the packed byte extracts to the values packed, so it decodes, and to the sequence itself. -/
theorem decodeOfEncodeIsTheSequence : Obligations.DecodeOfEncodeIsTheSequence := by
  intro seq b s t henc ht
  obtain ⟨hm, hf, rfl⟩ := encodeFirst_eq_ok.mp (encodeFirst_of_response henc ht)
  have hvals := map_extractField_packedByte s.config.wf.1 (by rw [List.length_map, hm.1]) hf
  have hd : Decodes s.config.t1 (packedByte s.config.t1 (seq.map FieldValue.val)) :=
    decodes_of_fit (hvals.symm ▸ hf)
  have hseq := hm.eq_fieldsOf hvals.symm
  refine exec_of_ok rfl (decodeTable_of_decodes hd) ?_
  rw [StatusValue.reduce, ← hseq]

/-- Settles O11: the decoded sequence is encoded, to the packing of the extracted values. -/
theorem encodeOfDecodeClearsReservedBits : Obligations.EncodeOfDecodeClearsReservedBits := by
  intro raw seq s t hdec ht
  obtain ⟨hd, rfl⟩ := decodeFirst_of_response hdec ht
  have henc := encodeFirst_of_fit (matchesFirst_fieldsOf s.config raw) (by rw [fieldsOf_vals]; exact fit_of_decodes hd)
  rw [fieldsOf_vals] at henc
  constructor
  · rw [packedByte_map_extractField] at henc
    exact exec_of_ok rfl henc rfl
  · intro ha
    rw [packedByte_map_extractField_of_aligned ha, ← not_gap] at henc
    exact exec_of_ok rfl henc rfl

/-- Settles O12: the byte is packed from values that fit, and only value `idx` differs from the decoded ones. -/
theorem upd1KeepsOtherFieldsClearsGap : Obligations.Upd1KeepsOtherFieldsClearsGap := by
  intro raw idx val b w s t hupd ht
  obtain ⟨hf, rfl⟩ := updateFirst_ok (updateFirst_of_response hupd ht)
  refine ⟨packedByte_and_gap s.config.wf.1 hf, fun k fs hk hfs ha => ?_⟩
  have hkept : ((s.config.t1.map (extractField raw.reduce)).set idx val)[k]? = some (extractField raw.reduce fs) := by
    rw [List.getElem?_set_ne hk.symm, List.getElem?_map, hfs, Option.map_some]
  rw [packedByte_and_mask s.config.wf.1 hf hfs hkept, insertField_extractField ha]

end Sys2Proof.Machine
end

section
/-! SUPPORT. Proofs of 41_checksum_frame. VALID sees a frame through two numbers: the exact sum of its payload bytes and
its trailer. Writing one position changes one of the two alone, and by a known amount: hence a single changed byte is always
detected (R135 (b)), and an exchange of payload bytes never. -/

namespace Sys2Proof

variable {f g : Frame} {a b : Fin 10} {v : Byte}

/-! ### The checksum and the trailer as numbers (R130, R133) -/

theorem hiByte_mul_add_loByte (w : Half) : (hiByte w).toNat * 256 + (loByte w).toNat = w.toNat := by
  rw [← be16_toNat, be16_hi_lo]

/-- Payloads with one checksum have one sum: the modulus identifies nothing (R131). -/
theorem checksum_inj {p q : Payload} : checksum p = checksum q ↔ payloadSum p = payloadSum q := by
  rw [← checksum_toNat p, ← checksum_toNat q, BitVec.toNat_inj]

/-- A number of at most 2040 has bits 15 to 11 zero (R131). -/
theorem extractLsb'_eq_zero_of_le {w : Half} (h : w.toNat ≤ 2040) : w.extractLsb' 11 5 = 0 := by
  apply BitVec.eq_of_toNat_eq
  rw [BitVec.extractLsb'_toNat, Nat.shiftRight_eq_div_pow, Nat.div_eq_of_lt (by omega)]
  rfl

/-! ### Writing one position (R20, R55) -/

/-- A payload write adds the new byte to the sum and takes the old one away. -/
theorem payloadSum_frameWrite (f : Frame) (v : Byte) (h : a.val < 8) :
    payloadSum (frameWrite f a v).payload + (frameRead f a).toNat = payloadSum f.payload + v.toNat := by
  match a, h with
  | 0, _ | 1, _ | 2, _ | 3, _ | 4, _ | 5, _ | 6, _ | 7, _ =>
    simp only [frameWrite, frameRead, payloadSum]
    omega
  | 8, h | 9, h => exact absurd h (by decide)

theorem trailer_frameWrite_of_payload (f : Frame) (v : Byte) (h : a.val < 8) :
    trailer (frameWrite f a v) = trailer f := by
  match a, h with
  | 0, _ | 1, _ | 2, _ | 3, _ | 4, _ | 5, _ | 6, _ | 7, _ => rfl
  | 8, h | 9, h => exact absurd h (by decide)

theorem payload_frameWrite_of_trailer (f : Frame) (v : Byte) (h : 8 ≤ a.val) :
    (frameWrite f a v).payload = f.payload := by
  obtain rfl | rfl : a = 8 ∨ a = 9 := by omega
  · rfl
  · rfl

/-- The trailer determines its two bytes. -/
theorem frameRead_eq_of_trailer_eq (h : trailer f = trailer g) (ha : 8 ≤ a.val) : frameRead f a = frameRead g a := by
  obtain ⟨hhi, hlo⟩ := be16_inj h
  obtain rfl | rfl : a = 8 ∨ a = 9 := by omega
  · exact hhi
  · exact hlo

/-- Exchanging two payload bytes keeps the sum. -/
theorem payloadSum_exchange (f : Frame) (ha : a.val < 8) (hb : b.val < 8) :
    payloadSum (frameWrite (frameWrite f a (frameRead f b)) b (frameRead f a)).payload = payloadSum f.payload := by
  have h1 := payloadSum_frameWrite f (frameRead f b) ha
  have h2 := payloadSum_frameWrite (frameWrite f a (frameRead f b)) (frameRead f a) hb
  have hread : frameRead (frameWrite f a (frameRead f b)) b = frameRead f b := by
    by_cases hab : b = a
    · rw [hab, frameRead_frameWrite]
    · exact frameRead_frameWrite_ne f _ hab
  rw [hread] at h2
  omega

theorem xor_twoPow_ne (x : Byte) (j : Fin 8) : x ^^^ BitVec.twoPow 8 j.val ≠ x := by
  have hbit : ∀ j : Fin 8, BitVec.twoPow 8 j.val ≠ 0 := by decide
  intro h
  exact hbit j ((BitVec.xor_right_inj x).mp (h.trans (BitVec.xor_zero).symm))

end Sys2Proof

namespace Sys2Proof.Machine

section

variable {f : Frame} {a : Fin 10} {v : Byte} {s t : State}

/-! ### What VALID accepts (R133, R135) -/

/-- A valid frame with one byte replaced by another is invalid: exactly one side of the comparison has changed. -/
theorem checksumOk_frameWrite_of_ne (h : checksumOk f = true) (hv : v ≠ frameRead f a) :
    checksumOk (frameWrite f a v) = false := by
  rw [checksumOk_iff] at h
  rw [Bool.eq_false_iff, ne_eq, checksumOk_iff]
  intro h'
  obtain ha | ha := Nat.lt_or_ge a.val 8
  · rw [trailer_frameWrite_of_payload f v ha, ← h, checksum_inj] at h'
    have hsum := payloadSum_frameWrite f v ha
    exact hv (BitVec.eq_of_toNat_eq (by omega))
  · rw [payload_frameWrite_of_trailer f v ha, h] at h'
    rw [frameRead_eq_of_trailer_eq h' ha, frameRead_frameWrite] at hv
    exact hv rfl

/-! ### What VALID answers -/

theorem exec_valid_of_ok (s : State) (h : checksumOk f = true) :
    exec (.valid f) s = .next { s with request := none, response := some { ok := some true } } := by
  rw [exec_eq_answer, responseOf_valid, if_pos h]
  rfl

theorem exec_valid_of_mismatch (s : State) (h : checksumOk f = false) :
    exec (.valid f) s = .next { s with
      request := none
      response := some
        { status := .checksumError
          info := some (.checksum (checksum f.payload) (trailer f))
          ok := some false } } := by
  rw [exec_eq_answer, responseOf_valid, if_neg (by simp [h])]
  rfl

/-- VALID answers another status than OK for a mismatch only. -/
theorem checksumOk_of_rejected {r : Response} (he : exec (.valid f) s = .next t) (ht : t.response = some r)
    (hr : r.status ≠ .ok) : checksumOk f = false := by
  rw [Bool.eq_false_iff]
  intro h
  cases (exec_valid_of_ok s h).symm.trans he
  cases ht
  exact hr rfl

theorem checksumOk_of_accepted
    (h : exec (.valid f) s = .next { s with request := none, response := some { ok := some true } }) :
    checksumOk f = true := by
  by_contra hf
  cases (exec_valid_of_mismatch s (by simpa using hf)).symm.trans h

/-- Frames with one sum and one trailer are answered alike. -/
theorem responseOf_valid_congr (cfg : UnitConfig) {g : Frame} (hsum : payloadSum f.payload = payloadSum g.payload)
    (htr : trailer f = trailer g) : responseOf cfg (.valid f) = responseOf cfg (.valid g) := by
  rw [responseOf_valid, responseOf_valid, checksumOk, checksumOk, checksum_inj.mpr hsum, htr]

/-! ### The gate of the response layouts (R136) -/

/-- Each response layout answers the verdict of VALID, and fills its fields on a match alone. -/
theorem responseOf_responseLayout (cfg : UnitConfig) {r : Frame} {i : Instr}
    (h : i ∈ [Instr.getstateR r, .addrdefR r, .rdflowR r, .zerogetR r, .ackR r]) :
    ∃ fill : Unit → Response, responseOf cfg i = .ofResult (validate r) fill := by
  simp only [List.mem_cons, List.not_mem_nil, or_false] at h
  obtain rfl | rfl | rfl | rfl | rfl := h <;> exact ⟨_, rfl⟩

/-! ### Answers under another configuration (R137) -/

/-- An instruction whose response is the same under another configuration answers the same under it. -/
theorem exec_with_config {i : Instr} {r : Response} {cfg : UnitConfig} (hi : responseOf cfg i = responseOf s.config i)
    (h : exec i s = .next (s.answer r)) :
    exec i { s with config := cfg } = .next (State.answer { s with config := cfg } r) := by
  obtain rfl : r = responseOf s.config i := Option.some.inj (exec_response h)
  rw [exec_eq_answer, hi]

end

/-! ### The obligations -/

/-- Settles O15: the checksum is the sum modulo 65536, and CSUM answers it. -/
theorem csumIsSumOfEightBytes : Obligations.CsumIsSumOfEightBytes := fun p _ s =>
  ⟨rfl, checksum p, BitVec.toNat_ofNat _ _, exec_eq_answer _ s⟩

/-- Settles O16: eight bytes sum to at most 2040, far below the modulus. -/
theorem checksumNeverWraps : Obligations.ChecksumNeverWraps := by
  intro p s t v he ht
  cases (exec_response he).symm.trans ht
  have hle : (checksum p).toNat ≤ 2040 := checksum_toNat p ▸ payloadSum_le p
  exact ⟨checksum_toNat p, hle, extractLsb'_eq_zero_of_le hle⟩

/-- Settles O17: BUILD seals its operands, and the two trailer bytes read together are the checksum. -/
theorem buildLaysOutTenBytes : Obligations.BuildLaysOutTenBytes := fun cmd args addr _ s =>
  ⟨rfl, buildFrame cmd args addr, exec_eq_answer _ s, rfl, rfl, rfl, rfl, rfl, rfl, rfl, rfl,
    (hiByte_mul_add_loByte _).trans (BitVec.toNat_ofNat _ _)⟩

/-- Settles O18: the two numbers are the checksum of the payload and the trailer. -/
theorem validComparesSumWithTrailer : Obligations.ValidComparesSumWithTrailer := by
  intro f x s
  refine ⟨rfl, checksum f.payload, trailer f, BitVec.toNat_ofNat _ _, be16_toNat _ _, fun h => ?_, fun h => ?_⟩
  · exact exec_valid_of_ok s ((checksumOk_iff f).mpr h)
  · exact exec_valid_of_mismatch s (Bool.eq_false_iff.mpr (mt (checksumOk_iff f).mp h))

/-- Settles O19: BUILD answers a sealed payload, whose trailer is its checksum. -/
theorem builtFrameIsValid : Obligations.BuiltFrameIsValid := by
  intro cmd args addr f s t he ht
  cases (exec_response he).symm.trans ht
  exact exec_valid_of_ok s (checksumOk_sealFrame _)

/-- Settles O20: a flipped bit replaces one byte of the frame by another. -/
theorem everySingleBitFlipIsRejected : Obligations.EverySingleBitFlipIsRejected := fun _ _ j s h =>
  ⟨_, _, exec_valid_of_mismatch s (checksumOk_frameWrite_of_ne (checksumOk_of_accepted h) (xor_twoPow_ne _ j))⟩

/-- Settles O21: an exchange within the payload keeps both the sum and the trailer. -/
theorem exchangedPayloadBytesAreNotDetected : Obligations.ExchangedPayloadBytesAreNotDetected := by
  intro f a b s ha hb
  have htr := (trailer_frameWrite_of_payload (frameWrite f a (frameRead f b)) (frameRead f a) hb).trans
    (trailer_frameWrite_of_payload f (frameRead f b) ha)
  rw [exec_eq_answer, exec_eq_answer, responseOf_valid_congr s.config (payloadSum_exchange f ha hb) htr]

/-- Settles O22: the responses of the three operations do not mention the configuration. -/
theorem checksumFamilyReadsNoTable : Obligations.ChecksumFamilyReadsNoTable := fun _ _ _ _ _ _ _ =>
  ⟨fun _ => exec_with_config rfl, fun _ => exec_with_config rfl, fun _ => exec_with_config rfl⟩

/-- Settles O33: a mismatch is the one way VALID rejects, and every response layout raises the same mismatch. -/
theorem noFieldOfAnInvalidResponse : Obligations.NoFieldOfAnInvalidResponse := by
  intro r s t v i he ht hv hi
  have hbad := checksumOk_of_rejected he ht hv
  obtain ⟨fill, hfill⟩ := responseOf_responseLayout s.config hi
  cases (exec_valid_of_mismatch s hbad).symm.trans he
  cases ht
  exact exec_of_error hfill (validate_of_mismatch hbad)

end Sys2Proof.Machine
end

section
/-! SUPPORT. Proofs of 42_frame_layouts. A request layout whose argument bytes are defined answers their sealed frame (R150), and
each response layout answers a valid frame with the bytes at its positions (R151); both are said once, for every layout. What a
request carries is then read off the layout's argument bytes, and what a response depends on off the positions it reads. -/

namespace Sys2Proof

section

variable {f g : Frame} {a : Fin 9} {rate : Int}

/-! ### 16-bit fields of a frame (R13, R11) -/

theorem frameRead16_toNat (f : Frame) (a : Fin 9) :
    (frameRead16 f a).toNat = (frameRead f a.castSucc).toNat * 256 + (frameRead f a.succ).toNat := be16_toNat _ _

/-- A 16-bit read sees its two bytes alone. -/
theorem frameRead16_congr (hhi : frameRead f a.castSucc = frameRead g a.castSucc)
    (hlo : frameRead f a.succ = frameRead g a.succ) : frameRead16 f a = frameRead16 g a := by
  rw [frameRead16, frameRead16, hhi, hlo]

/-- The signed reading differs from the unsigned one by a multiple of 65536. -/
theorem s16_sub_toNat_emod (v : Half) : (s16 v - (v.toNat : Int)) % 65536 = 0 := by
  unfold s16
  split <;> omega

/-- The signed number in two bytes of a frame: its range, and its residue (R11, R158). -/
theorem s16_frameRead16 (f : Frame) (a : Fin 9) :
    -32768 ≤ s16 (frameRead16 f a) ∧ s16 (frameRead16 f a) ≤ 32767 ∧
      (s16 (frameRead16 f a) - ((frameRead f a.castSucc).toNat * 256 + (frameRead f a.succ).toNat : Nat)) % 65536 = 0 := by
  obtain ⟨hlow, hhigh⟩ := s16_range (frameRead16 f a)
  exact ⟨hlow, hhigh, frameRead16_toNat f a ▸ s16_sub_toNat_emod _⟩

/-! ### The rate encoder (R164) -/

theorem ratecode_of_mem_rateCodes {c : Byte} (h : (rate, c) ∈ rateCodes) : ratecode rate = some c := by
  simp only [rateCodes, List.mem_cons, List.not_mem_nil, or_false, Prod.mk.injEq] at h
  obtain ⟨rfl, rfl⟩ | ⟨rfl, rfl⟩ | ⟨rfl, rfl⟩ := h <;> rfl

theorem ratecode_eq_none (h : rate ∉ [9600, 19200, 38400]) : ratecode rate = none := by
  simp only [List.mem_cons, List.not_mem_nil, or_false, not_or] at h
  obtain ⟨h1, h2, h3⟩ := h
  rw [ratecode_eq, if_neg h1, if_neg h2, if_neg h3]

end

/-- Six argument bytes at zero: the payload sums to its code and byte 7. -/
theorem payloadSum_zero_args (cmd addr : Byte) :
    payloadSum { cmd := cmd, args := ⟨0, 0, 0, 0, 0, 0⟩, addr := addr } = cmd.toNat + addr.toNat := rfl

end Sys2Proof

namespace Sys2Proof.Machine

section

variable {i : Instr} {l : ReqLayout} {a : ReqArgs} {g : Args} {r : Frame} {s : State}

/-! ### What a request layout answers (R150) -/

/-- A request layout whose argument bytes are defined answers the frame of its code, those bytes and byte 7. -/
theorem exec_of_layoutArgs (i : Instr) (s : State) (hi : i.layout = some (l, a)) (hg : layoutArgs l a = .ok g) :
    exec i s = .next (s.answer { frame := some (sealFrame { cmd := l.code, args := g, addr := a.addr }) }) := by
  rw [← decodeReqLayout_layout hi]
  exact exec_of_ok (responseOf_layout s.config l a) (layoutFrame_ok hg) rfl

theorem exec_baud_of_no_code {rate : Int} (addr : Byte) (s : State) (h : ratecode rate = none) :
    exec (.baud rate addr) s = .next (s.raise (.validation rate)) := by
  rw [exec_eq_answer, responseOf_baud_error s.config h]
  rfl

/-! ### What a response layout answers to a valid frame (R151) -/

/-- VALID accepts, so the fields are answered. -/
theorem exec_of_valid {fields : Response} (hi : responseOf s.config i = .ofResult (validate r) fun _ => fields)
    (h : checksumOk r = true) : exec i s = .next (s.answer fields) := exec_of_ok hi (validate_of_ok h) rfl

theorem exec_getstateR_of_valid (h : checksumOk r = true) :
    exec (.getstateR r) s = .next (s.answer
      { raw1 := some (frameRead r s.config.stateRspOff1), raw2 := some (frameRead r s.config.stateRspOff2) }) :=
  exec_of_valid rfl h

theorem exec_addrdefR_of_valid (h : checksumOk r = true) :
    exec (.addrdefR r) s = .next (s.answer { address := some (frameRead r 7), serial := some (frameRead16 r 5) }) :=
  exec_of_valid rfl h

theorem exec_rdflowR_of_valid (h : checksumOk r = true) :
    exec (.rdflowR r) s = .next (s.answer
      { flow := some (s16 (frameRead16 r 2)), setpoint := some (s16 (frameRead16 r 4)) }) :=
  exec_of_valid rfl h

theorem exec_zerogetR_of_valid (h : checksumOk r = true) :
    exec (.zerogetR r) s = .next (s.answer { shift := some (frameRead16 r 4) }) := exec_of_valid rfl h

theorem exec_ackR_of_valid (h : checksumOk r = true) : exec (.ackR r) s = .next (s.answer {}) := exec_of_valid rfl h

end

/-! ### The obligations -/

/-- Settles O23: the four layouts lay out six zero bytes, so the checksum is that of code and byte 7. -/
theorem addressOnlyRequestsBuildTheirFrames : Obligations.AddressOnlyRequestsBuildTheirFrames := by
  intro addr s i code hi
  have htrailer : (trailer (sealFrame { cmd := code, args := ⟨0, 0, 0, 0, 0, 0⟩, addr := addr })).toNat =
      code.toNat + addr.toNat := by
    rw [trailer_sealFrame, checksum_toNat, payloadSum_zero_args]
  refine ⟨_, ?_, sealFrame_payload _, htrailer⟩
  simp only [List.mem_cons, List.not_mem_nil, or_false, Prod.mk.injEq] at hi
  obtain ⟨rfl, rfl⟩ | ⟨rfl, rfl⟩ | ⟨rfl, rfl⟩ | ⟨rfl, rfl⟩ := hi
  · exact exec_of_layoutArgs (.getstate addr) s rfl (layoutArgs_getstate _)
  · exact exec_of_layoutArgs (.addrdef addr) s rfl (layoutArgs_addrdef _)
  · exact exec_of_layoutArgs (.rdflow addr) s rfl (layoutArgs_rdflow _)
  · exact exec_of_layoutArgs (.zeroget addr) s rfl (layoutArgs_zeroget _)

/-- Settles O24: the frame is the payload sealed, and the payload is what the layout's slots lay out. -/
theorem oneByteArgumentRequestsBuildTheirFrames : Obligations.OneByteArgumentRequestsBuildTheirFrames := by
  intro v w addr s i p hi
  refine ⟨sealFrame p, ?_, sealFrame_payload p, checksumOk_sealFrame p⟩
  simp only [List.mem_cons, List.not_mem_nil, or_false, Prod.mk.injEq] at hi
  obtain ⟨rfl, rfl⟩ | ⟨rfl, rfl⟩ | ⟨rfl, rfl⟩ | ⟨rfl, rfl⟩ := hi
  · exact exec_of_layoutArgs (.regime v w addr) s rfl (layoutArgs_regime _)
  · exact exec_of_layoutArgs (.recov v addr) s rfl (layoutArgs_recov _)
  · exact exec_of_layoutArgs (.plug v addr) s rfl (layoutArgs_plug _)
  · exact exec_of_layoutArgs (.readdr v addr) s rfl (layoutArgs_readdr _)

/-- Settles O25: the two slots hold the high and the low byte of the pattern, which read together are the pattern. -/
theorem sixteenBitArgumentRequestsBuildTheirFrames : Obligations.SixteenBitArgumentRequestsBuildTheirFrames :=
  fun v addr s =>
    ⟨⟨_, exec_of_layoutArgs (.setflow v addr) s rfl (layoutArgs_setflow _), hiByte_mul_add_loByte v, rfl, checksumOk_sealFrame _⟩,
      ⟨_, exec_of_layoutArgs (.zeroset v addr) s rfl (layoutArgs_zeroset _), hiByte_mul_add_loByte v, rfl, checksumOk_sealFrame _⟩⟩

/-- Settles O26: a rate in the table is laid out as its code; any other has no code, and BAUD raises. -/
theorem baudEncodesThreeRatesRejectsTheRest : Obligations.BaudEncodesThreeRatesRejectsTheRest := by
  intro rate addr s
  constructor
  · intro c hc
    have hargs := layoutArgs_baud_ok { rate := rate, addr := addr } (ratecode_of_mem_rateCodes hc)
    exact ⟨_, exec_of_layoutArgs (.baud rate addr) s rfl hargs, rfl, checksumOk_sealFrame _⟩
  · intro h
    exact exec_baud_of_no_code addr s (ratecode_eq_none h)

/-- Settles O30: the serial number is the 16-bit read at position 5. -/
theorem addrdefResponseReadsSerialAndAddress : Obligations.AddrdefResponseReadsSerialAndAddress := fun r _ h =>
  ⟨_, frameRead16_toNat r 5, exec_addrdefR_of_valid h⟩

/-- Settles O31: the two numbers are the signed 16-bit reads at positions 2 and 4. -/
theorem rdflowResponseReadsSignedPair : Obligations.RdflowResponseReadsSignedPair := fun r _ h =>
  ⟨_, _, s16_frameRead16 r 2, s16_frameRead16 r 4, exec_rdflowR_of_valid h⟩

/-- Settles O32: the shift is the 16-bit read at position 4; an acknowledge has no field. -/
theorem zerogetAndAckResponses : Obligations.ZerogetAndAckResponses := fun r _ h =>
  ⟨⟨_, frameRead16_toNat r 4, exec_zerogetR_of_valid h⟩, exec_ackR_of_valid h⟩

/-- Settles O34: each layout answers a valid frame with reads at its positions, and the two frames agree there. -/
theorem unreadResponseBytesDoNotMatter : Obligations.UnreadResponseBytesDoNotMatter := by
  intro r r' s h h'
  refine ⟨fun h1 h2 => ?getstateR, fun hp => ?addrdefR, fun hp => ?rdflowR, fun hp => ?zerogetR, ?ackR⟩
  case getstateR => rw [exec_getstateR_of_valid h, exec_getstateR_of_valid h', h1, h2]
  case addrdefR =>
    have hserial : frameRead16 r 5 = frameRead16 r' 5 := frameRead16_congr (hp 5 (by decide)) (hp 6 (by decide))
    rw [exec_addrdefR_of_valid h, exec_addrdefR_of_valid h', hserial, hp 7 (by decide)]
  case rdflowR =>
    have hflow : frameRead16 r 2 = frameRead16 r' 2 := frameRead16_congr (hp 2 (by decide)) (hp 3 (by decide))
    have hsetpoint : frameRead16 r 4 = frameRead16 r' 4 := frameRead16_congr (hp 4 (by decide)) (hp 5 (by decide))
    rw [exec_rdflowR_of_valid h, exec_rdflowR_of_valid h', hflow, hsetpoint]
  case zerogetR =>
    have hshift : frameRead16 r 4 = frameRead16 r' 4 := frameRead16_congr (hp 4 (by decide)) (hp 5 (by decide))
    rw [exec_zerogetR_of_valid h, exec_zerogetR_of_valid h', hshift]
  case ackR => rw [exec_ackR_of_valid h, exec_ackR_of_valid h']

/-- Settles O27: the table's three codes, and BAUD raises at every rate without one. -/
theorem rateEncoderHasThreeCodes : Obligations.RateEncoderHasThreeCodes := by
  refine ⟨rfl, rfl, rfl, fun rate addr s h1 h2 h3 => ?_⟩
  have hnone : ratecode rate = none := ratecode_eq_none (by simp [h1, h2, h3])
  exact ⟨hnone, exec_baud_of_no_code addr s hnone, rfl⟩

/-- Settles O29: the positions are the configuration's. -/
theorem getstateResponseReadsConfiguredBytes : Obligations.GetstateResponseReadsConfiguredBytes :=
  fun _ _ h => exec_getstateR_of_valid h

end Sys2Proof.Machine
end

section
/-! SUPPORT. Proofs of 43_host_reference. The converter rounds to within half a unit, so within `max_flow` its register is in
range and reads back signed (R193). What the host does next is said once for each phase, for each answer of the transport and
for each branch of `writeFlow`; a claim about a step is read off the rule of the phase it starts in. -/

namespace Sys2Proof.Machine

/-! ### The converter (R190 to R193) -/

section

variable {f m : Rat}

theorem engineering_of_ne_zero (n : Int) (hm : m ≠ 0) : engineering n m = .ok ((n : Rat) / 10000 * m) := if_neg hm

theorem engineering_zero (n : Int) : engineering n 0 = .error (.validation 0) := if_pos rfl

theorem fromEngineering_zero (f : Rat) : fromEngineering f 0 = .error (.validation 0) := if_pos rfl

/-- Rounding moves a number by at most one half, whichever way an exact half goes (I5). -/
theorem abs_roundNearest_sub_le (q : Rat) : |(roundNearest q : Rat) - q| ≤ 1 / 2 := by
  have hlow : (q.floor : Rat) ≤ q := Rat.floor_le q
  have hhigh : q < q.floor + 1 := by exact_mod_cast Rat.lt_floor_add_one q
  unfold roundNearest
  rw [abs_le]
  simp only
  split_ifs <;> push_cast <;> constructor <;> linarith

/-- A number of magnitude at most 10000 rounds into the range of a register. -/
theorem roundNearest_range {q : Rat} (h : |q| ≤ 10000) : -32768 ≤ roundNearest q ∧ roundNearest q ≤ 32767 := by
  obtain ⟨hql, hqh⟩ := abs_le.mp h
  obtain ⟨hrl, hrh⟩ := abs_le.mp (abs_roundNearest_sub_le q)
  constructor <;> refine Int.cast_le (R := Rat).mp ?_ <;> push_cast <;> linarith

/-- A number in range, written as a register, is read back signed (R191, R11). -/
theorem s16_ofInt {n : Int} (hl : -32768 ≤ n) (hh : n ≤ 32767) : s16 (BitVec.ofInt 16 n) = n := by
  rw [s16_eq_toInt]
  exact BitVec.toInt_ofInt_eq_self (by decide) (by omega) (by omega)

theorem fromEngineering_of_range (hm : m ≠ 0) (hl : -32768 ≤ roundNearest (f / m * 10000))
    (hh : roundNearest (f / m * 10000) ≤ 32767) :
    fromEngineering f m = .ok (BitVec.ofInt 16 (roundNearest (f / m * 10000))) := by
  rw [fromEngineering, if_neg hm]
  exact if_pos ⟨hl, hh⟩

end

/-! ### One step of the host, by its phase -/

section

variable {s : State} {x : Exchange} {r : Response} {c : Call}

theorem withResponse_of_some (hr : s.response = some r) (k : Response → HostOutcome) : withResponse s k = k r := by
  rw [withResponse, hr]

theorem step_of_building (hq : s.request = none) (hp : s.host.phase = .building x) (hr : s.response = some r) :
    step s = onBuilt x r s := by
  rw [step_of_no_request hq, hostStep, hp]
  exact withResponse_of_some hr _

theorem step_of_writing {f : Frame} (hq : s.request = none) (hp : s.host.phase = .writing x f) :
    step s = .next (s.transport (.write f) fun _ s' => s'.await (.reading x)) := by
  rw [step_of_no_request hq, hostStep, hp]

theorem step_of_reading (hq : s.request = none) (hp : s.host.phase = .reading x) :
    step s = .next (s.transport (.read 10) fun t s' => s'.ask (.rspLayout x.sent t.frame) (.parsing x)) := by
  rw [step_of_no_request hq, hostStep, hp]

theorem step_of_parsing (hq : s.request = none) (hp : s.host.phase = .parsing x) (hr : s.response = some r) :
    step s = onParsed x r s := by
  rw [step_of_no_request hq, hostStep, hp]
  exact withResponse_of_some hr _

theorem step_of_coding (hq : s.request = none) (hp : s.host.phase = .coding c) (hr : s.response = some r) :
    step s = onCoded c r s := by
  rw [step_of_no_request hq, hostStep, hp]
  exact withResponse_of_some hr _

theorem step_of_regReading {a : Half} {n : Nat} {rest : List (Half × Nat)} {got : List Half} (hq : s.request = none)
    (hp : s.host.phase = .regReading c a n rest got) : step s = readRegs c a n rest got s := by
  rw [step_of_no_request hq, hostStep, hp]

theorem step_of_regWriting {leg : Leg} {a v : Half} (hq : s.request = none)
    (hp : s.host.phase = .regWriting c leg a v) :
    step s = .next (s.transport (.writeRegister a v) fun _ s' => afterRegWrite c leg s') := by
  rw [step_of_no_request hq, hostStep, hp]

end

/-! ### The answers of the transport (R195, R271) -/

section

variable {s : State} {call : TransportCall} {reply : TransportReply} {more : List TransportReply}

theorem transport_of_reply (hi : s.host.inbox = reply :: more) (he : reply.error = none)
    (k : TransportReply → State → State) : s.transport call k = k reply (s.called more call) := by
  rw [State.transport, hi]
  simp only [he]

/-- Without an answer the outcome is the state as it was; a failing answer ends the operation, with `call` logged. -/
def Outcome.BlocksOrFails (s : State) (call : TransportCall) (o : HostOutcome) : Prop :=
  (s.host.inbox = [] → o = .next s) ∧
    ∀ reply more d, s.host.inbox = reply :: more → reply.error = some d →
      o = .next ((s.called more call).finish (.failed (.transport d)))

theorem transport_blocksOrFails (k : TransportReply → State → State) :
    Outcome.BlocksOrFails s call (.next (s.transport call k)) := by
  unfold State.transport
  constructor
  · intro hi
    rw [hi]
  · intro reply more d hi hd
    simp only [hi, hd]

theorem readRegs_blocksOrFails (c : Call) (a : Half) (n : Nat) (rest : List (Half × Nat)) (got : List Half) :
    Outcome.BlocksOrFails s (.readRegisters a n) (readRegs c a n rest got s) := by
  unfold readRegs
  constructor
  · intro hi
    rw [hi]
  · intro reply more d hi hd
    simp only [hi, hd]

end

/-! ### The start of a call (R203, R204, R230) -/

section

variable {h : HostState} {c : Call} {s : State}

/-- The error the checks find ends the call before any I/O. -/
theorem step_of_callError {rest : List Call} {e : HostError} (hq : s.request = none) (hp : s.host.phase = .idle)
    (hc : s.host.calls = c :: rest) (he : callError s.host c = some e) (hi : c ≠ .identify ∨ s.host.address = none) :
    step s = .next ((s.taken rest).finish (.failed e)) := by
  rw [step_of_call hq hp hc]
  exact startCall_of_error he hi

/-- Without an address a call with a good argument is refused as such. -/
theorem callError_of_unset_good (ha : h.address = none) (hc : c ≠ .identify) (hb : badArgument h.params c = none) :
    callError h c = some (.notIdentified c) := by
  rw [callError, notIdentified_of_unset ha hc, hb]

/-- Without an address and with a bad argument, HOST_ERR_ORDER chooses (D33). -/
theorem callError_of_unset_bad {bad : HostError} (ha : h.address = none) (hc : c ≠ .identify)
    (hb : badArgument h.params c = some bad) :
    callError h c = some (if h.params.validationFirst then bad else .notIdentified c) := by
  rw [callError, notIdentified_of_unset ha hc, hb]

/-- An argument is good where no unsupported rate, no conversion with `max_flow` zero and no flow to convert is asked for. -/
theorem badArgument_eq_none {p : HostParams} (hrate : ∀ rate, c = .setBaudrate rate → rate ∈ [9600, 19200, 38400])
    (hread : c = .readFlow → p.maxFlow ≠ 0) (hwrite : ∀ f, c = .writeFlow f → f = 0) : badArgument p c = none := by
  cases c with
  | setBaudrate rate =>
    have hmem := hrate rate rfl
    simp only [List.mem_cons, List.not_mem_nil, or_false] at hmem
    obtain rfl | rfl | rfl := hmem <;> rfl
  | readFlow => exact if_neg (hread rfl)
  | writeFlow f => exact if_pos (.inl (hwrite f rfl))
  | identify | getState | getWritableState | setRegime _ _ | setZero _ | getZero | redefineAddress _ | setRecoveryMode _
  | setPlugMode _ => rfl

theorem badArgument_setBaudrate (p : HostParams) {rate : Int} (hr : rate ∉ [9600, 19200, 38400]) :
    badArgument p (.setBaudrate rate) = some (.unit (.validation rate)) := by
  simp only [badArgument, ratecode_eq_none hr]

theorem badArgument_readFlow {p : HostParams} (hm : p.maxFlow = 0) : badArgument p .readFlow = some (.validation 0) :=
  if_pos hm

theorem badArgument_writeFlow {p : HostParams} {flow : Rat} (hm : p.maxFlow = 0) (hf : flow ≠ 0) :
    badArgument p (.writeFlow flow) = some (.validation 0) := by
  simp only [badArgument, hm, hf, lt_irrefl, or_self, if_false, fromEngineering_zero]

/-- A known address is returned, and the unit is asked for nothing (R204). -/
theorem startCall_identify_of_address {a : Byte} (ha : s.host.address = some a) :
    startCall .identify s = .next (s.finish (.returned (.address a))) := by
  simp only [startCall, ha]

theorem callError_identify_of_unset (ha : h.address = none) : callError h .identify = none := by
  simp only [callError, notIdentified, HostState.sessionState, ha, badArgument]

/-- A call that converts no flow and that its checks let through is launched. -/
theorem startCall_of_no_error (hc : c ≠ .identify ∨ s.host.address = none) (he : callError s.host c = none)
    (hn : needsConversion c = false) : startCall c s = launch c s := by
  unfold startCall
  split
  next a ha => simp [ha] at hc
  · rw [he, hn]
    exact if_neg nofun

/-- Without an address variant a begins the address-define exchange (R204). -/
theorem startCall_identify_of_unset (ha : s.host.address = none) (hv : s.host.params.variant = .a) :
    startCall .identify s = .next (s.ask (.reqLayout .addrdef { addr := s.config.addrdefReqAddr })
      (.building { call := .identify, leg := .only, sent := .addrdef })) := by
  rw [startCall_of_no_error (.inr ha) (callError_identify_of_unset ha) rfl, launch, hv]
  rfl

end

/-! ### The response of an exchange -/

section

variable {s : State} {x : Exchange} {r : Response}

/-- An error of the unit ends the call, and the identity is as it was (R215). -/
theorem onParsed_of_error {e : UnitError} (hi : r.info = some e) :
    onParsed x r s = .next (s.finish (.failed (.unit e))) := by
  simp only [onParsed, hi]

theorem onParsed_identify {a : Byte} {n : Half} (hi : r.info = none) (hc : x.call = .identify) (ha : r.address = some a)
    (hn : r.serial = some n) : onParsed x r s = .next ((capture a n s).finish (.returned (.address a))) := by
  simp only [onParsed, hi, hc, ha, hn]

theorem onParsed_writeBack {flow : Rat} (hi : r.info = none) (hc : x.call = .writeFlow flow) (hl : x.leg = .writeBack) :
    onParsed x r s = .next (afterValve flow s) := by
  simp only [onParsed, hi, hc, hl]

theorem onParsed_setpoint {flow : Rat} {raw : Half} (hi : r.info = none) (hc : x.call = .writeFlow flow)
    (hl : x.leg = .setpoint raw) : onParsed x r s = .next (s.finish (.returned .done)) := by
  simp only [onParsed, hi, hc, hl]

end

/-! ### The write half and the setpoint of writeFlow (R209, R214) -/

section

variable {s : State} {flow : Rat} {raw : Half} {a : Byte}

/-- The next step acts on the byte and the `write_needed` of UPD1. -/
theorem step_of_updated {b : Byte} {needed : Bool} (hq : s.request = none) (hp : s.host.phase = .coding (.writeFlow flow))
    (hr : s.response = some { byte := some b, writeNeeded := some needed }) :
    step s = .next (writeHalf flow b needed s) := step_of_coding hq hp hr

/-- With the address known, an exchange of `writeFlow` asks for its request, the address put in. -/
theorem beginExchange_writeFlow (leg : Leg) (ha : s.host.address = some a) :
    beginExchange (.writeFlow flow) leg s =
      s.ask (.reqLayout (legRequest s.host.params (.writeFlow flow) leg).1
          { (legRequest s.host.params (.writeFlow flow) leg).2 with addr := a })
        (.building
          { call := .writeFlow flow, leg := leg, sent := (legRequest s.host.params (.writeFlow flow) leg).1 }) := by
  simp only [beginExchange, addressByte, ha]

theorem afterValve_zero (s : State) : afterValve 0 s = s.finish (.returned .done) := if_pos rfl

theorem afterValve_of_a (hf : flow ≠ 0) (hraw : fromEngineering flow s.host.params.maxFlow = .ok raw)
    (hv : s.host.params.variant = .a) (ha : s.host.address = some a) :
    afterValve flow s = s.ask (.reqLayout .setflow { flowRaw := raw, addr := a })
      (.building { call := .writeFlow flow, leg := .setpoint raw, sent := .setflow }) := by
  simp only [afterValve, if_neg hf, hraw, hv]
  exact beginExchange_writeFlow (.setpoint raw) ha

theorem afterValve_of_b (hf : flow ≠ 0) (hraw : fromEngineering flow s.host.params.maxFlow = .ok raw)
    (hv : s.host.params.variant = .b) :
    afterValve flow s = s.await (.regWriting (.writeFlow flow) (.setpoint raw) 0x0004 raw) := by
  simp only [afterValve, if_neg hf, hraw, hv, Register.address]

/-- With no difference found the write half is left out (R209, R268). -/
theorem writeHalf_not_needed (b : Byte) : writeHalf flow b false s = afterValve flow s := rfl

theorem writeHalf_of_a (b : Byte) (hv : s.host.params.variant = .a) (ha : s.host.address = some a) :
    writeHalf flow b true s =
      s.ask (.reqLayout (writeBackRequest s.host.params flow).1
          { (writeBackRequest s.host.params flow).2 with addr := a })
        (.building
          { call := .writeFlow flow, leg := .writeBack, sent := (writeBackRequest s.host.params flow).1 }) := by
  simp only [writeHalf, if_true, hv]
  exact beginExchange_writeFlow .writeBack ha

theorem writeHalf_of_b (b : Byte) (hv : s.host.params.variant = .b) :
    writeHalf flow b true s = s.await (.regWriting (.writeFlow flow) .writeBack 0x0002 (zext16 b)) := by
  simp only [writeHalf, if_true, hv, Register.address]

theorem writeBackRequest_of_plug {p : HostParams} (h : p.writeBack = .plug) :
    writeBackRequest p flow = (.plug, { mode := valveTarget p flow }) := by
  simp only [writeBackRequest, h]

theorem writeBackRequest_of_given {p : HostParams} {closed regulation : ReqLayout × ReqArgs}
    (h : p.writeBack = .given closed regulation) :
    writeBackRequest p flow = if flow = 0 then closed else regulation := by
  simp only [writeBackRequest, h]

theorem zext16_toNat (b : Byte) : (zext16 b).toNat = b.toNat := BitVec.toNat_setWidth_of_le (by decide)

end

/-! ### The obligations -/

/-- Settles O48: the step is in step as an outcome, which a fault is not. -/
theorem stepKeepsHostAndUnitInStep : Obligations.StepKeepsHostAndUnitInStep := by
  intro s h
  have hs := step_inStep h
  constructor
  · intro e he
    exact Outcome.not_inStep_fault e (he ▸ hs)
  · intro t ht
    rw [ht] at hs
    exact hs

/-- Settles O53: the quotient, in range, is rounded by at most one half, which scales back to `max_flow` / 20000. -/
theorem flowConversionRoundTrip : Obligations.FlowConversionRoundTrip := by
  intro f m hm hl hh
  have hm0 : m ≠ 0 := hm.ne'
  have hq : |f / m * 10000| ≤ 10000 := by
    have hlow : -1 ≤ f / m := by rwa [le_div_iff₀ hm, neg_one_mul]
    have hhigh : f / m ≤ 1 := (div_le_one hm).mpr hh
    exact abs_le.mpr ⟨by linarith, by linarith⟩
  obtain ⟨hrl, hrh⟩ := roundNearest_range hq
  refine ⟨_, _, fromEngineering_of_range hm0 hrl hrh, engineering_of_ne_zero _ hm0, ?_⟩
  rw [s16_ofInt hrl hrh]
  generalize hn : (roundNearest (f / m * 10000) : Rat) = n
  have hround : |n - f / m * 10000| ≤ 1 / 2 := hn ▸ abs_roundNearest_sub_le _
  have hscale : n / 10000 * m - f = (n - f / m * 10000) * (m / 10000) := by field_simp
  calc |n / 10000 * m - f| = |n - f / m * 10000| * (m / 10000) := by
        rw [hscale, abs_mul, abs_of_pos (show 0 < m / 10000 by positivity)]
    _ ≤ 1 / 2 * (m / 10000) := by gcongr
    _ ≤ m / 10000 := by linarith

/-- Settles O52: the signed reading of the register, scaled; at `max_flow` zero the conversion fails. -/
theorem toEngineeringScalesSignedRegister : Obligations.ToEngineeringScalesSignedRegister := by
  intro raw m
  constructor
  · intro hm
    rw [toEngineering, engineering_of_ne_zero _ hm.ne', div_mul_eq_mul_div, s16]
    split_ifs <;> push_cast <;> rfl
  · rintro rfl
    exact ⟨_, engineering_zero _, rfl⟩

/-- Settles O57: three of the phases make their call through `State.transport`, a register read makes its own. -/
theorem transportBlocksOrPassesItsError : Obligations.TransportBlocksOrPassesItsError := by
  intro s call hq hphase
  have hstep : Outcome.BlocksOrFails s call (step s) := by
    obtain ⟨x, f, hp, rfl⟩ | ⟨x, hp, rfl⟩ | ⟨c, a, n, rest, got, hp, rfl⟩ | ⟨c, leg, a, v, hp, rfl⟩ := hphase
    · exact step_of_writing hq hp ▸ transport_blocksOrFails _
    · exact step_of_reading hq hp ▸ transport_blocksOrFails _
    · exact step_of_regReading hq hp ▸ readRegs_blocksOrFails c a n rest got
    · exact step_of_regWriting hq hp ▸ transport_blocksOrFails _
  exact hstep

/-- Settles O54: the two starts of `identify`, the capture, and the two failures, which change no identity. -/
theorem identifyDiscoversOnceThenReturns : Obligations.IdentifyDiscoversOnceThenReturns := by
  intro s hq
  refine ⟨?known, ?unset, ?captured, ?rejected, ?transportFailed⟩
  case known =>
    intro a rest hp hc ha
    rw [step_of_call hq hp hc]
    exact startCall_identify_of_address ha
  case unset =>
    intro rest hp hc ha hv
    rw [step_of_call hq hp hc]
    exact startCall_identify_of_unset ha hv
  case captured =>
    intro x r a n hp hc hr hi ha hn
    exact ⟨_, (step_of_parsing hq hp hr).trans (onParsed_identify hi hc ha hn), rfl, rfl, rfl, rfl, rfl⟩
  case rejected =>
    intro x r e hp hr hi
    exact ⟨_, (step_of_parsing hq hp hr).trans (onParsed_of_error hi), rfl, rfl, rfl, rfl⟩
  case transportFailed =>
    intro x f reply more d hp hi hd
    obtain ⟨call, hcall⟩ : ∃ call, Outcome.BlocksOrFails s call (step s) := by
      obtain hp | hp := hp
      · exact ⟨_, transportBlocksOrPassesItsError s _ hq (.inl ⟨x, f, hp, rfl⟩)⟩
      · exact ⟨_, transportBlocksOrPassesItsError s _ hq (.inr (.inl ⟨x, hp, rfl⟩))⟩
    exact ⟨_, hcall.2 reply more d hi hd, rfl, rfl, rfl, rfl⟩

/-- Settles O55: the checks find an error for every operation but `identify`; which one depends on the argument. -/
theorem unidentifiedOperationSendsNoFrame : Obligations.UnidentifiedOperationSendsNoFrame := by
  intro s c rest hq hp hc ha hne
  cases hb : badArgument s.host.params c with
  | none =>
    refine ⟨_, step_of_callError hq hp hc (callError_of_unset_good ha hne hb) (.inl hne), ?_⟩
    exact ⟨fun _ => rfl, fun _ _ _ => rfl, nofun⟩
  | some bad =>
    refine ⟨_, step_of_callError hq hp hc (callError_of_unset_bad ha hne hb) (.inl hne), nofun, ?good, ?bad⟩
    case good =>
      intro hrate hread hwrite
      cases hb.symm.trans (badArgument_eq_none hrate hread hwrite)
    case bad =>
      rintro _ ⟨⟩
      exact ⟨badArgument_status hb, rfl⟩

/-- Settles O56: each of the three arguments is bad, and with the address known its error is the call's. -/
theorem validationFailsBeforeAnyIO : Obligations.ValidationFailsBeforeAnyIO := by
  intro s c rest a hq hp hc ha hbad
  obtain ⟨e, he, hne⟩ : ∃ e, badArgument s.host.params c = some e ∧ c ≠ .identify := by
    obtain ⟨rate, rfl, hr⟩ | ⟨hm, rfl | ⟨f, rfl, hf⟩⟩ := hbad
    · exact ⟨_, badArgument_setBaudrate _ hr, nofun⟩
    · exact ⟨_, badArgument_readFlow hm, nofun⟩
    · exact ⟨_, badArgument_writeFlow hm hf, nofun⟩
  exact ⟨e, badArgument_status he, step_of_callError hq hp hc ((callError_of_address ha c).trans he) (.inl hne)⟩

/-- Settles O60: the write half of each variant, and after it, answered or validated, what `afterValve` does. -/
theorem writeHalfGoesFirstThenTheSetpoint : Obligations.WriteHalfGoesFirstThenTheSetpoint := by
  intro s flow hq
  refine ⟨?writeHalf, ?registerWritten, ?writeBackValidated, ?setpointValidated, ?setpointWritten⟩
  case writeHalf =>
    intro b hp hr
    rw [step_of_updated hq hp hr]
    refine ⟨fun hv => ⟨zext16 b, zext16_toNat b, congrArg _ (writeHalf_of_b b hv)⟩, fun a hv ha => ?_⟩
    rw [writeHalf_of_a b hv ha]
    constructor
    · intro hw
      rw [writeBackRequest_of_plug hw]
      rfl
    · intro closed regulation hw
      rw [writeBackRequest_of_given hw]
      rfl
  case registerWritten =>
    intro v reply more hv hp hi he
    rw [step_of_regWriting hq hp, transport_of_reply hi he]
    constructor
    · rintro rfl
      exact congrArg _ (afterValve_zero _)
    · intro raw hf hraw
      exact congrArg _ (afterValve_of_b hf hraw hv)
  case writeBackValidated =>
    intro x r hv hp hc hl hr hi
    rw [step_of_parsing hq hp hr, onParsed_writeBack hi hc hl]
    constructor
    · rintro rfl
      exact congrArg _ (afterValve_zero s)
    · intro raw a hf hraw ha
      exact congrArg _ (afterValve_of_a hf hraw hv ha)
  case setpointValidated =>
    intro x r raw hp hc hl hr hi
    exact (step_of_parsing hq hp hr).trans (onParsed_setpoint hi hc hl)
  case setpointWritten =>
    intro raw reply more hp hi he
    rw [step_of_regWriting hq hp, transport_of_reply hi he]
    rfl

/-- Settles O58: the rule of each phase, with the frame or the answer it waits for. -/
theorem exchangeWritesThenReadsThenParses : Obligations.ExchangeWritesThenReadsThenParses := by
  intro s x f hq
  refine ⟨fun hp hr => step_of_building hq hp hr, ?written, ?read⟩
  case written =>
    intro reply more hp hi he
    rw [step_of_writing hq hp, transport_of_reply hi he]
    rfl
  case read =>
    intro reply more hp hi he
    rw [step_of_reading hq hp, transport_of_reply hi he]
    rfl

/-- Settles O59: with nothing to write back, the step is what `afterValve` does. -/
theorem writeFlowWithoutDifferenceWritesOnlyTheSetpoint : Obligations.WriteFlowWithoutDifferenceWritesOnlyTheSetpoint := by
  intro s flow b hq hp hr
  rw [step_of_updated hq hp hr, writeHalf_not_needed]
  constructor
  · rintro rfl
    exact congrArg _ (afterValve_zero s)
  · intro raw hf hraw
    exact ⟨fun a hv ha => congrArg _ (afterValve_of_a hf hraw hv ha), fun hv => congrArg _ (afterValve_of_b hf hraw hv)⟩

end Sys2Proof.Machine
end

section
/-! SUPPORT. Proof of 60_exceptions. An error is reported by a raised response: `status`, `info` and no result (R240, R111). VALID
alone writes a slot beside the error, `ok` = 0 (R133; log entry 6). -/

namespace Sys2Proof.Machine

variable {cfg : UnitConfig} {i : Instr} {e : UnitError}

/-- Of a result, an error alone is reported as one: no result fills `info`. -/
theorem ofResult_eq_raised {α : Type} {r : Result α} {fill : α → Response} (hfill : ∀ v, (fill v).info = none)
    (h : (Response.ofResult r fill).info = some e) : Response.ofResult r fill = .raised e := by
  cases r with
  | ok v => exact nomatch (hfill v).symm.trans h
  | error _ =>
    cases h
    rfl

/-- VALID's error is the mismatch, raised with `ok` = 0 beside it. -/
theorem responseOf_valid_of_info {f : Frame} (h : (responseOf cfg (.valid f)).info = some e) :
    responseOf cfg (.valid f) = { Response.raised e with ok := some false } := by
  rw [responseOf_valid] at h ⊢
  split at h
  · cases h
  · next hf =>
    cases h
    rw [if_neg hf]
    rfl

/-- A response that reports an error is the raised one; only VALID's has `ok`. -/
theorem responseOf_of_info (h : (responseOf cfg i).info = some e) :
    ∃ ok, responseOf cfg i = { Response.raised e with ok := ok } ∧
      (ok = none ∨ (∃ f, i = .valid f) ∧ ok = some false) := by
  cases i with
  | valid f => exact ⟨_, responseOf_valid_of_info h, .inr ⟨⟨f, rfl⟩, rfl⟩⟩
  | csum _ | build _ _ _ => cases h
  | dec1 _ | dec2 _ | decw _ _ | enc1 _ | upd1 _ _ _
  | getstate _ | addrdef _ | rdflow _ | baud _ _ | regime _ _ _ | readdr _ _ | recov _ _ | plug _ _ | zeroset _ _
  | zeroget _ | setflow _ _
  | getstateR _ | addrdefR _ | rdflowR _ | zerogetR _ | ackR _ =>
    exact ⟨none, ofResult_eq_raised (fun _ => rfl) h, .inl rfl⟩

/-- Settles O37: an error is reported by a raised response, whose result slots are absent but for VALID's `ok`. -/
theorem raisedErrorsCarryNoResult : Obligations.RaisedErrorsCarryNoResult := by
  intro i s t r e he ht hinfo
  obtain rfl : responseOf s.config i = r := Option.some.inj ((exec_response he).symm.trans ht)
  obtain ⟨ok, hr, hok⟩ := responseOf_of_info hinfo
  rw [hr]
  exact ⟨rfl, rfl, rfl, rfl, rfl, rfl, rfl, rfl, rfl, rfl, rfl, rfl, rfl, hok⟩

end Sys2Proof.Machine
end
